-- ==== Sys2Proof/Word.lean ====
section
/-! DEFINITION. The word and byte types of BIN2-CORE (spec/00_scope.md rule R7: `XLEN` = 32, a byte is 8 bits).

Every quantity of the block is an unsigned number of a fixed width (rule R9), so a bit vector with wrapping
arithmetic is exactly the spec's arithmetic modulo 2^32: `<<<` is the logical left shift, `>>>` the logical right
shift, `*` the product modulo 2^32 and `^^^` the bitwise exclusive or. -/

namespace Sys2Proof

/-- A 32-bit unsigned word: a register, a key word, a command word (rules R7, R13, R52). -/
abbrev Word := BitVec 32

/-- A byte of the buffer memory or of the keystream (rule R31). -/
abbrev Byte := BitVec 8

end Sys2Proof
end

