-- ==== Sys2Proof/Config.lean ====
section
/-! DEFINITION. What is fixed for one block and is no state (spec/10_state.md rule R30): its parameters, and the
values the spec leaves free.

The spec leaves two parameters open for a model to take as arguments (spec/92_eei_decisions.md, last table): the
capacity `BUF_CAP` and the initial contents of `BUF`. `exec` and `step` have no room for an argument, so the record
`Config` stands in `State` (notes/assumptions/1.md, DESIGN CHOICE). No step changes it. -/

namespace Sys2Proof

/-- The parameters of one block. -/
structure Config where
  /-- `BUF_CAP`, the capacity of the buffer memory in bytes (rule R8). -/
  bufCap : Nat
  /-- Which of the possible initial contents of `BUF` this block came up with: the index of a free value
  (`Config.powerOnByte`), not a number the hardware has. -/
  powerOn : Nat
  deriving DecidableEq, Repr

/-- FREE VALUE. The byte that offset `a` of `BUF` holds after the reset numbered `r`, until it is written: "any
value, not necessarily the same after two resets" (rule R29; U5: any value). Nothing constrains it. -/
opaque Config.powerOnByte (r a : Nat) : Byte

/-- FREE VALUE. What the fields of `STATUS` other than `BUSY` read as while `BUSY` = 1 (rule R147; U8: any value), at
the host's read numbered `d`. Nothing constrains it. -/
opaque Config.busyFields (d : Nat) : Word

end Sys2Proof
end

