-- ==== Sys2Proof/Syntax.lean ====
section
/-! DEFINITION. The commands of BIN2-CORE (spec/30_encoding.md rule R55) and the host's primitive accesses
(spec/20_memory.md rule R34), which are the only events that act on the block. -/

namespace Sys2Proof

/-- The four commands, one constructor per row of spec/opcode_table.json, in the order of their operation codes.
A command carries no operand field: every operand is implicit (rule R54). -/
inductive Instr where
  /-- `DERIVE`: key derivation from `N` (rule R78). -/
  | derive
  /-- `DECRYPT`: header test, rotator and XOR engine, decrypt direction (rule R86). -/
  | decrypt
  /-- `DETECT`: the header detector (rule R96). -/
  | detect
  /-- `ENCRYPT`: header test, XOR engine and rotator, encrypt direction (rule R106). -/
  | encrypt
  deriving DecidableEq, Repr

/-- The eight entries of the register map (rule R27). `cmd` is a write-only port and no storage (rule R20). -/
inductive Register where
  | cmd
  | status
  | len
  | n
  | k0
  | k1
  | k2
  | k3
  deriving DecidableEq, Repr

/-- The two address spaces of the block, and there are no others (rule R33). -/
inductive Space where
  | register
  | buffer
  deriving DecidableEq, Repr

/-- One primitive access of the host (rule R34). The first four are the ones the spec gives a meaning: 32-bit
register accesses and 8-bit buffer accesses. `otherWidth` is an access, read or write, of any other width, which
has no defined effect (rule R28, spec/93_implementation_defined.md U7). -/
inductive HostAccess where
  | regRead (off : Nat)
  | regWrite (off : Nat) (v : Word)
  | bufRead (a : Nat)
  | bufWrite (a : Nat) (v : Byte)
  | otherWidth (space : Space) (off : Nat) (width : Nat)
  deriving DecidableEq, Repr

/-- What one read gave the host: the `=>` column of the spec's host programs (rule R61). -/
inductive HostRead where
  | register (off : Nat) (v : Word)
  | byte (a : Nat) (v : Byte)
  deriving DecidableEq, Repr

end Sys2Proof
end

