-- ==== Sys2Proof/WellFormed.lean ====
section
/-! DEFINITION. The checks the spec makes on the things a machine is given: a command word (rule R53), a host access
(rules R28, R39, R42) and the parameters of a block (rule R8). -/

namespace Sys2Proof

/-- A command as syntax: it has no operand field (rule R54), so there is nothing to check, and each of the four is
well formed. -/
def Instr.wellFormed : Instr → Bool
  | .derive => true
  | .decrypt => true
  | .detect => true
  | .encrypt => true

/-- A command word is well formed when `w[31:8]` is 0 and `w[7:0]` is one of 1, 2, 3, 4 (rule R53). -/
def commandWordWellFormed (w : Word) : Bool :=
  w.extractLsb' 8 24 == 0#24 &&
    (w.extractLsb' 0 8 == 1#8 || w.extractLsb' 0 8 == 2#8 || w.extractLsb' 0 8 == 3#8 || w.extractLsb' 0 8 == 4#8)

/-- A host access that the spec gives an effect on an idle block of capacity `cap`: a 32-bit access at one of the
eight offsets 0x00 to 0x1C, all multiples of 4 (rules R27, R28, R39), or a byte access at an offset below the capacity
(rules R38, R42). An access of another width has none. -/
def HostAccess.wellFormed (cap : Nat) : HostAccess → Bool
  | .regRead off => off % 4 == 0 && decide (off ≤ 0x1C)
  | .regWrite off _ => off % 4 == 0 && decide (off ≤ 0x1C)
  | .bufRead a => decide (a < cap)
  | .bufWrite a _ => decide (a < cap)
  | .otherWidth _ _ _ => false

/-- The constraint on the capacity: `8 <= BUF_CAP <= 2^32 - 1` (rule R8). -/
abbrev Config.wf (c : Config) : Prop := 8 ≤ c.bufCap ∧ c.bufCap ≤ 2 ^ 32 - 1

end Sys2Proof
end

