-- ==== Sys2Proof/Decode.lean ====
section
/-! DEFINITION. The decoder of command words (spec/30_encoding.md rules R52 to R59), the encoder written from the same
table, and the address decoder of the register space (spec/10_state.md rule R27).

A command word is a 32-bit number the host writes to `CMD`. It is never stored in a memory, so it has no byte order
(rules R38, R50): the bits of spec/opcode_table.json are the bits of that number. -/

namespace Sys2Proof

/-- Why a word encodes no command (rule R56). -/
inductive DecodeError where
  /-- Some bit of `w[31:8]` is not 0, whatever `w[7:0]` is. -/
  | upperBitsSet
  /-- `w[31:8]` is 0 and `w[7:0]` is no operation code: 0x00 or 0x05 to 0xFF. -/
  | unknownOp
  deriving DecidableEq, Repr

/-- The field `op`, bits 7:0 (rule R52). -/
def opField (w : Word) : BitVec 8 := w.extractLsb' 0 8

/-- The field `zero`, bits 31:8 (rule R52). -/
def zeroField (w : Word) : BitVec 24 := w.extractLsb' 8 24

/-- Decode, total on 32-bit words (rule R59). -/
def decode (w : Word) : Except DecodeError Instr :=
  if zeroField w ≠ 0#24 then .error .upperBitsSet
  else if opField w = 0x01#8 then .ok .derive
  else if opField w = 0x02#8 then .ok .decrypt
  else if opField w = 0x03#8 then .ok .detect
  else if opField w = 0x04#8 then .ok .encrypt
  else .error .unknownOp

/-- The operation codes (rule R55). -/
def opcode : Instr → BitVec 8
  | .derive => 0x01#8
  | .decrypt => 0x02#8
  | .detect => 0x03#8
  | .encrypt => 0x04#8

/-- The command word of a command: `zero` above `op` (rules R52, R55). -/
def encode (i : Instr) : Word := 0#24 ++ opcode i

/-- A word of the opcode table as the 32-bit number written to `CMD`: its low `nbits` bits, zeros above. -/
def tableWord (nbits w : Nat) : Word := BitVec.ofNat 32 (w % 2 ^ nbits)

/-- The command the decoder reads from an opcode-table word. -/
def decodeTableWord (nbits w : Nat) : Option Instr := (decode (tableWord nbits w)).toOption

/-- The byte offset of a register in the register space (rule R27). -/
def Register.offset : Register → Nat
  | .cmd => 0x00
  | .status => 0x04
  | .len => 0x08
  | .n => 0x0C
  | .k0 => 0x10
  | .k1 => 0x14
  | .k2 => 0x18
  | .k3 => 0x1C

/-- The register map in the order of its offsets (rule R27). -/
def registerMap : List Register := [.cmd, .status, .len, .n, .k0, .k1, .k2, .k3]

/-- The register at a byte offset of the register space, or none where the map has no entry (rules R27, R28). -/
def registerAt (off : Nat) : Option Register := registerMap.find? fun r => r.offset == off

end Sys2Proof
end

