-- ==== Sys2Proof/Machine/State.lean ====
section
/-! DEFINITION. The state of the machine as plain data (spec/10_state.md rule R13), the reasons a step can stop, and
the state after reset (rule R29). -/

namespace Sys2Proof.Machine

/-- The Key: four 32-bit words, `K[0]` first (rule R16). -/
structure Key where
  k0 : Word
  k1 : Word
  k2 : Word
  k3 : Word
  deriving DecidableEq, Repr

/-- The outcomes of a command (rule R116), in the order of their codes. -/
inductive ResultCode where
  | ok
  | notEncrypted
  | alreadyEncrypted
  | malformedCiphertext
  | shortPayload
  | capacity
  | badLength
  | illegalCommand
  deriving DecidableEq, Repr

/-- The buffer memory `BUF` (rule R18): the bytes written since reset, as (offset, byte) pairs. -/
abbrev Memory := List Host.Cell

/-- What an unlisted offset holds: no byte that anyone has written. A read of it gives the free value
`Config.powerOnByte` (rule R29, U5; notes/assumptions/2.md). -/
abbrev Memory.unlisted : Option Byte := none

/-- The canonical form: offsets strictly rising, and no entry equal to what an unlisted offset holds. -/
abbrev Memory.wf (m : Memory) : Prop :=
  m.Pairwise (fun c d => c.1 < d.1) ∧ ∀ c ∈ m, some c.2 ≠ Memory.unlisted

/-- The state of one block and of the host that drives it. The spec's own state is `n`, `len`, `k`, `status` and `buf`
(rule R13: "and nothing else"); `cfg`, `host` and `reads` are the model's fields. -/
structure State where
  /-- MODEL'S FIELD. The parameters of the block, constant (rule R30). -/
  cfg : Config
  /-- `N`, the operand of `DERIVE` (rule R14). -/
  n : Word
  /-- `LEN`, the number of bytes of the sequence in `BUF` (rule R15). -/
  len : Word
  /-- `K[0]` to `K[3]` (rule R16). -/
  k : Key
  /-- `STATUS` (rule R17), read whole by the host. -/
  status : Word
  /-- `BUF` (rules R18, R19). -/
  buf : Memory
  /-- MODEL'S FIELD. The host's accesses still to come, first one first: a host program is a finite list of primitive
  accesses (rule R145), and the order in which it issues them is the only order (rules R22, R47). -/
  host : List HostAccess
  /-- MODEL'S FIELD. What the host's reads have given so far, the latest first (rule R61). -/
  reads : List HostRead
  deriving DecidableEq, Repr

/-- The reasons the machine faults. There is none: the block never traps (rule R114), nothing in it is stuck
(spec/93_implementation_defined.md, after U16), and an error of a command is an outcome code in `STATUS`, after which
the machine goes on (rule R117). -/
inductive Fault where
  deriving DecidableEq, Repr

/-- The reasons the model gives a host access no meaning. -/
inductive Refusal where
  /-- Raised by no arm: every command has its meaning. SAFE. -/
  | notModelled (mnemonic : String)
  /-- Raised by `hostAccess` while `STATUS.BUSY` = 1, on any access but a read of `STATUS`: "a protocol violation whose
  effect is not defined: a model refuses it" (rule R148, U6). SAFE. -/
  | accessWhileBusy
  /-- Raised by `hostAccess` on a register access at an offset outside the eight of the map: "no defined effect: a model
  refuses it" (rule R28, U7). SAFE. -/
  | registerOffset (off : Nat)
  /-- Raised by `hostAccess` on a buffer access at an offset at or above `BUF_CAP`: "no defined effect; a model refuses
  it" (rule R42, U7). SAFE. -/
  | bufferOffset (a : Nat)
  /-- Raised by `hostAccess` on an access of a width other than 32 bits (registers) or 8 bits (buffer): refused likewise
  (rules R28, R38, U7). SAFE. -/
  | accessWidth (width : Nat)
  deriving DecidableEq, Repr

/-- The state right after reset of a block with parameters `c` (rule R29): every register 0, the sequencer idle, no byte
of `BUF` written; the host has issued nothing. -/
def State.resetWith (c : Config) : State where
  cfg := c
  n := 0#32
  len := 0#32
  k := ⟨0#32, 0#32, 0#32, 0#32⟩
  status := 0#32
  buf := []
  host := []
  reads := []

/-- The state right after reset of one particular block. Its capacity, 64 bytes, and the index of its power-on contents
are the model's own (notes/assumptions/1.md and 2.md, DESIGN CHOICE): no rule gives them. -/
def State.reset : State := State.resetWith ⟨64, 0⟩

end Sys2Proof.Machine
end

