-- ==== Sys2Proof/Machine/Flags.lean ====
section
/-! DEFINITION. The register `STATUS`: its fields (spec/10_state.md rule R17), the outcome codes (spec/60_exceptions.md
rule R116) and what a read of it gives (spec/70_reset_and_hazards.md rule R147). -/

namespace Sys2Proof.Machine

/-- The code of an outcome, `STATUS.CODE` (rule R116). -/
def ResultCode.number : ResultCode → BitVec 4
  | .ok => 0
  | .notEncrypted => 1
  | .alreadyEncrypted => 2
  | .malformedCiphertext => 3
  | .shortPayload => 4
  | .capacity => 5
  | .badLength => 6
  | .illegalCommand => 7

/-- `STATUS` put together from its fields, the reserved bits 7:3 and 31:12 zero (rule R17). -/
def packStatus (busy done hdr : Bool) (code : BitVec 4) : Word :=
  0#20 ++ code ++ 0#5 ++ BitVec.ofBool hdr ++ BitVec.ofBool done ++ BitVec.ofBool busy

/-- `STATUS.BUSY`, bit 0. -/
def statusBusy (w : Word) : Bool := w.getLsbD 0

/-- `STATUS.DONE`, bit 1. -/
def statusDone (w : Word) : Bool := w.getLsbD 1

/-- `STATUS.HDR`, bit 2, the block's one flag (rule R23). -/
def statusHdr (w : Word) : Bool := w.getLsbD 2

/-- `STATUS.CODE`, bits 11:8. -/
def statusCode (w : Word) : BitVec 4 := w.extractLsb' 8 4

/-- What `STATUS` holds once a command has completed with outcome `x` and header flag `h` (rules R17, R117): `BUSY` = 0,
`DONE` = 1. -/
def completedStatus (x : ResultCode) (h : Bool) : Word := packStatus false true h x.number

/-- What a host read of `STATUS` gives. The reserved bits 7:3 and 31:12 read as 0 (rule R17). While `BUSY` = 1 it shows `BUSY`,
and unspecified values in `DONE`, `HDR` and `CODE` (rule R147, U8): a free value at each read, numbered by the reads the host
has made (notes/assumptions/6.md). -/
def statusRead (s : State) : Word :=
  if statusBusy s.status then (Config.busyFields s.reads.length &&& 0x00000F06#32) ||| 0x00000001#32
  else s.status &&& 0x00000F07#32

end Sys2Proof.Machine
end

