-- ==== Sys2Proof/Machine/Ops.lean ====
section
/-! DEFINITION. The named operations over the state: its updates, the buffer memory (spec/20_memory.md), and the end of a
command, which is all that "taking an exception" is on this block (spec/60_exceptions.md rule R130). -/

namespace Sys2Proof.Machine

/-- `N` <- `v`. -/
def State.setN (s : State) (v : Word) : State := { s with n := v }
/-- `LEN` <- `v`. -/
def State.setLen (s : State) (v : Word) : State := { s with len := v }
/-- `K[0..3]` <- `k`, all four together (rule R16). -/
def State.setKey (s : State) (k : Key) : State := { s with k := k }
/-- `STATUS` <- `w`, the whole register (rule R17). -/
def State.setStatus (s : State) (w : Word) : State := { s with status := w }
/-- `BUF` <- `m`. -/
def State.setBuf (s : State) (m : Memory) : State := { s with buf := m }
/-- The host's accesses still to come. -/
def State.setHost (s : State) (p : List HostAccess) : State := { s with host := p }
/-- The host has been given the value of one more read. -/
def State.logRead (s : State) (r : HostRead) : State := { s with reads := r :: s.reads }

/-- The byte written to offset `a` since reset, if any. -/
def Memory.lookup : Memory → Nat → Option Byte
  | [], _ => Memory.unlisted
  | (b, w) :: m, a => if b = a then some w else Memory.lookup m a

/-- Write byte `v` at offset `a`, in rising order of offsets. -/
def Memory.write : Memory → Nat → Byte → Memory
  | [], a, v => [(a, v)]
  | (b, w) :: m, a, v =>
    if a < b then (a, v) :: (b, w) :: m
    else if a = b then (a, v) :: m
    else (b, w) :: Memory.write m a v

/-- Write the bytes `vs` at the offsets `a`, `a + 1`, .... -/
def Memory.store : Memory → Nat → List Byte → Memory
  | m, _, [] => m
  | m, a, v :: vs => Memory.store (Memory.write m a v) (a + 1) vs

/-- `BUF[a]`, the read of one byte (rules R18, R33): the byte last written there, and before any write since reset the free
value of rule R29. Total on all numbers; the memory has only the offsets below `BUF_CAP`, and no access and no command reads
another (DESIGN CHOICE, notes/assumptions/15.md). -/
def byteAt (s : State) (a : Nat) : Byte :=
  (Memory.lookup s.buf a).getD (Config.powerOnByte s.cfg.powerOn a)

/-- `BUF[a] <- v`, the write of one byte. -/
def State.writeByte (s : State) (a : Nat) (v : Byte) : State := s.setBuf (Memory.write s.buf a v)

/-- `BUF[a], BUF[a+1], ... <- vs`. A command gives it bytes computed from the state before the command (rule R45). -/
def State.storeBytes (s : State) (a : Nat) (vs : List Byte) : State := s.setBuf (Memory.store s.buf a vs)

/-- A command completes with outcome `x` and header flag `h`: `STATUS` is rewritten whole and nothing else changes
(rules R17, R117). Nothing is saved, no mode or mask changes and control goes nowhere (rule R130), so there is no return
operation either: nothing is to be restored (rule R131). -/
def completeWith (x : ResultCode) (h : Bool) (s : State) : State := s.setStatus (completedStatus x h)

/-- `raise X(h)` (rules R11, R117): the one shared operation by which a command reports an error outcome. -/
def raiseOutcome (x : ResultCode) (h : Bool) (s : State) : State := completeWith x h s

/-- `finish OK(h)` (rule R11), applied to the state that holds the command's writes. -/
def finishOk (h : Bool) (s : State) : State := completeWith .ok h s

end Sys2Proof.Machine
end

