-- ==== Sys2Proof/Machine/Operands.lean ====
section
/-! DEFINITION. The implicit operands of the commands (spec/30_encoding.md rule R54): the sequence `BUF[0..LEN)`, the header
constant, the keystream byte function, and the length check that comes before every buffer command. -/

namespace Sys2Proof.Machine

/-- The header constant `HDR`, the 8 ASCII characters `%BIN_2.0` (rule R21). -/
def header : List Byte := [0x25#8, 0x42#8, 0x49#8, 0x4E#8, 0x5F#8, 0x32#8, 0x2E#8, 0x30#8]

/-- `HDR[i]`, for `i` below 8 (used for no other `i`: notes/assumptions/15.md). -/
def headerByte (i : Nat) : Byte := header.getD i 0#8

/-- The source's `bytes`: the sequence `BUF[0..LEN)` (rule R19). -/
def contents (s : State) : List Byte := (List.range s.len.toNat).map (byteAt s)

/-- Word `j` of a key, `j` from 0 to 3 (rule R16; used for no other `j`: notes/assumptions/15.md). -/
def Key.word (k : Key) (j : Nat) : Word :=
  if j = 0 then k.k0 else if j = 1 then k.k1 else if j = 2 then k.k2 else k.k3

/-- `KS(k, j)`, byte `j` (0 to 15) of the keystream block of key `k`: the words in order, each little-endian
(rules R35, R36; used for no other `j`: notes/assumptions/15.md). -/
def keystreamByte (k : Key) (j : Nat) : Byte := (k.word (j / 4) >>> (8 * (j % 4))).setWidth 8

/-- The keystream cycled: the byte that meets index `i` of the plaintext order (rule R37). -/
def keystreamAt (k : Key) (i : Nat) : Byte := keystreamByte k (i % 16)

/-- The check before every buffer command: does `LEN` exceed `BUF_CAP`? (rules R60, R125) -/
def lengthTooLarge (s : State) : Bool := decide (s.cfg.bufCap < s.len.toNat)

end Sys2Proof.Machine
end

