-- ==== Sys2Proof/Machine/HeaderDetect.lean ====
section
/-! DEFINITION. The header detector and the command `DETECT` (spec/42_header_detect.md). -/

namespace Sys2Proof.Machine

/-- `HasHeader()` (rule R95): at least 8 bytes, and the first 8 are the header, each of them exactly. With `LEN` below 8
no byte is read. -/
def hasHeader (s : State) : Bool :=
  decide (8 ≤ s.len.toNat) && (List.range 8).all fun i => byteAt s i == headerByte i

/-- `DETECT` (rule R96), after the length check (rules R60, R125): `HDR` shows the result, and nothing but `STATUS` is
written. -/
def execDetect (s : State) : Host.Outcome State Fault Refusal :=
  if lengthTooLarge s then .next (raiseOutcome .badLength false s)
  else .next (finishOk (hasHeader s) s)

end Sys2Proof.Machine
end

