-- ==== Sys2Proof/Machine/KeyDerivation.lean ====
section
/-! DEFINITION. The 32-bit bit-mixing pipeline and the command `DERIVE` (spec/40_key_derivation.md). -/

namespace Sys2Proof.Machine

/-- `T(x) = x XOR (x << 13)` (rule R68). -/
def mixT (x : Word) : Word := x ^^^ (x <<< 13)

/-- The mixer `mix2(x) = (T(x) >> 17) XOR T(x)`, the right shift logical (rules R67, R68). -/
def mix2 (x : Word) : Word := (mixT x >>> 17) ^^^ mixT x

/-- The finisher `fin(x) = (32 * x) XOR x`, the product modulo 2^32 (rule R69). -/
def fin32 (x : Word) : Word := (32#32 * x) ^^^ x

/-- `DeriveKey(n)`, the words `a`, `c`, `e`, `g` of the chain (rule R70; the listing wins over the word "six", rule R74). -/
def deriveKey (n : Word) : Key :=
  let mix1 := mix2 n
  let a := fin32 mix1
  let b := mix2 a
  let c := fin32 b
  let d := mix2 c
  let e := fin32 d
  let f := mix2 e
  let g := fin32 f
  ⟨a, c, e, g⟩

/-- `DERIVE` (rule R78): `K[0..3] <- DeriveKey(N)`, outcome `OK` with `HDR` = 0. It reads no memory and does not look at
`LEN`, and it has no error condition. -/
def execDerive (s : State) : Host.Outcome State Fault Refusal :=
  .next (finishOk false (s.setKey (deriveKey s.n)))

end Sys2Proof.Machine
end

