-- ==== Sys2Proof/Machine/Decrypt.lean ====
section
/-! DEFINITION. The decryption path and the command `DECRYPT` (spec/41_decrypt.md). -/

namespace Sys2Proof.Machine

/-- Byte `i` of the plaintext, `i` below the content length `l`, from the state before the command (rule R86): the rotator
brings the last 8 bytes to the front, then the XOR engine applies the keystream of key `k`. -/
def decryptedByte (s : State) (l : Nat) (k : Key) (i : Nat) : Byte :=
  (if i < 8 then byteAt s (l + i) else byteAt s i) ^^^ keystreamAt k i

/-- The writes of a successful `DECRYPT` other than `STATUS` (rule R86): `BUF[0..l)`, `LEN` and `K[0..3]`, with
`l = LEN - 8`. The 8 offsets from `l` on keep their bytes (rule R90). -/
def decryptWrites (s : State) : State :=
  let l := s.len - 8#32
  let k := deriveKey l
  ((s.storeBytes 0 ((List.range l.toNat).map (decryptedByte s l.toNat k))).setLen l).setKey k

/-- `DECRYPT` (rule R86, checks in the order of rule R128): the length check, the header test (no header: the buffer is
left unchanged, rule R89), content length 1 to 7 (rule R88), and the transform. -/
def execDecrypt (s : State) : Host.Outcome State Fault Refusal :=
  if lengthTooLarge s then .next (raiseOutcome .badLength false s)
  else if hasHeader s = false then .next (raiseOutcome .notEncrypted false s)
  else if 1 ≤ s.len.toNat - 8 ∧ s.len.toNat - 8 ≤ 7 then .next (raiseOutcome .malformedCiphertext true s)
  else .next (finishOk true (decryptWrites s))

end Sys2Proof.Machine
end

