-- ==== Sys2Proof/Machine/Encrypt.lean ====
section
/-! DEFINITION. The encryption path and the command `ENCRYPT` (spec/43_encrypt.md). -/

namespace Sys2Proof.Machine

/-- `X(i)`, the XORed byte at index `i` of the plaintext order (rules R103, R106). -/
def xoredByte (s : State) (k : Key) (i : Nat) : Byte := byteAt s i ^^^ keystreamAt k i

/-- Byte `j` of the ciphertext of a plaintext of length `l`, `j` below `l + 8`, from the state before the command
(rules R103, R106): the header, then the XORed bytes 8 and up in place, then the first 8 XORed bytes at the tail. -/
def encryptedByte (s : State) (l : Nat) (k : Key) (j : Nat) : Byte :=
  if j < 8 then headerByte j else if j < l then xoredByte s k j else xoredByte s k (j - l)

/-- The writes of a successful `ENCRYPT` other than `STATUS` (rule R106): `BUF[0..l+8)`, `LEN` and `K[0..3]`, with
`l = LEN`. -/
def encryptWrites (s : State) : State :=
  let l := s.len
  let k := deriveKey l
  ((s.storeBytes 0 ((List.range (l.toNat + 8)).map (encryptedByte s l.toNat k))).setLen (l + 8#32)).setKey k

/-- `ENCRYPT` (rule R106, checks in the order of rule R128): the length check, the header test (rule R107), plaintext
length 1 to 7 (rule R108), the capacity check, made without wrapping (rule R109), and the transform. -/
def execEncrypt (s : State) : Host.Outcome State Fault Refusal :=
  if lengthTooLarge s then .next (raiseOutcome .badLength false s)
  else if hasHeader s then .next (raiseOutcome .alreadyEncrypted true s)
  else if 1 ≤ s.len.toNat ∧ s.len.toNat ≤ 7 then .next (raiseOutcome .shortPayload false s)
  else if s.cfg.bufCap < s.len.toNat + 8 then .next (raiseOutcome .capacity false s)
  else .next (finishOk false (encryptWrites s))

end Sys2Proof.Machine
end

