-- ==== Sys2Proof/Machine/Dispatch.lean ====
section
/-! DEFINITION. The dispatch of a decoded command to its meaning (spec/30_encoding.md rules R55, R60). -/

namespace Sys2Proof.Machine

def exec (i : Instr) (s : State) : Host.Outcome State Fault Refusal :=
  match i with
  | .derive => Sys2Proof.Machine.execDerive s
  | .decrypt => Sys2Proof.Machine.execDecrypt s
  | .detect => Sys2Proof.Machine.execDetect s
  | .encrypt => Sys2Proof.Machine.execEncrypt s

end Sys2Proof.Machine
end

