-- ==== Sys2Proof/Machine/HostPort.lean ====
section
/-! DEFINITION. What each primitive access of the host does (spec/20_memory.md rules R34, R38, R41, R42; spec/10_state.md
rules R20, R27, R28; spec/30_encoding.md rule R60; spec/70_reset_and_hazards.md rule R148). -/

namespace Sys2Proof.Machine

/-- Issue: a write of `w` to `CMD` on an idle block decodes `w` and executes exactly one command; a word that encodes none
completes with `ILLEGAL_COMMAND` (rules R56, R60, R126). The command is one atomic transition (rule R146). -/
def issue (w : Word) (s : State) : Host.Outcome State Fault Refusal :=
  match decode w with
  | .ok i => exec i s
  | .error _ => .next (raiseOutcome .illegalCommand false s)

/-- What a read of a register gives (rule R27). `CMD` stores nothing and reads as 0 (rules R20, R28). -/
def readRegister (r : Register) (s : State) : Word :=
  match r with
  | .cmd => 0#32
  | .status => statusRead s
  | .len => s.len
  | .n => s.n
  | .k0 => s.k.k0
  | .k1 => s.k.k1
  | .k2 => s.k.k2
  | .k3 => s.k.k3

/-- What a write of `v` to a register does (rules R20, R27): `CMD` starts a command, `LEN` and `N` store any value, and a
write to a read-only register (`STATUS`, `K[0..3]`) changes nothing (rule R28). -/
def writeRegister (r : Register) (v : Word) (s : State) : Host.Outcome State Fault Refusal :=
  match r with
  | .cmd => issue v s
  | .status => .next s
  | .len => .next (s.setLen v)
  | .n => .next (s.setN v)
  | .k0 => .next s
  | .k1 => .next s
  | .k2 => .next s
  | .k3 => .next s

/-- One primitive access of the host. While `BUSY` = 1 every access but a read of `STATUS` is refused (rules R28, R148); so
are, at any time, a register offset outside the map, a buffer offset at or above `BUF_CAP`, and another width (rules R28,
R42). Every other access has its effect, and no read changes the block (rule R41). -/
def hostAccess (a : HostAccess) (s : State) : Host.Outcome State Fault Refusal :=
  if statusBusy s.status ∧ a ≠ .regRead Register.status.offset then .refused .accessWhileBusy
  else
    match a with
    | .regRead off =>
      match registerAt off with
      | some r => .next (s.logRead (.register off (readRegister r s)))
      | none => .refused (.registerOffset off)
    | .regWrite off v =>
      match registerAt off with
      | some r => writeRegister r v s
      | none => .refused (.registerOffset off)
    | .bufRead x =>
      if x < s.cfg.bufCap then .next (s.logRead (.byte x (byteAt s x))) else .refused (.bufferOffset x)
    | .bufWrite x v =>
      if x < s.cfg.bufCap then .next (s.writeByte x v) else .refused (.bufferOffset x)
    | .otherWidth _ _ width => .refused (.accessWidth width)

/-- The next event of the machine. The block waits until the host issues an access and keeps its state meanwhile
(rules R22, R139); with an access to come, that access happens, and the host goes on to the next. -/
def nextEvent (s : State) : Host.Outcome State Fault Refusal :=
  match s.host with
  | [] => .next s
  | a :: rest => hostAccess a (s.setHost rest)

/-- The state in which the very next event writes `w` to `CMD` of an idle block: the access put before those still to come,
and `BUSY` = 0, which the issue of a command needs (rule R60). -/
def placeCommand (s : State) (w : Word) : State :=
  (s.setHost (.regWrite Register.cmd.offset w :: s.host)).setStatus (s.status &&& 0xFFFFFFFE#32)

end Sys2Proof.Machine
end

