-- ==== Sys2Proof/Machine/Step.lean ====
section
/-! DEFINITION. One step of the machine: the next event of the one total order of host accesses (spec/20_memory.md rule R47).
The block has no program counter and fetches nothing (spec/10_state.md rule R22): a command comes as a write to `CMD`. -/

namespace Sys2Proof.Machine

/-- One step. -/
def step (s : State) : Host.Outcome State Fault Refusal := nextEvent s

/-- `s` with the command word of an opcode-table row about to be written to `CMD` (notes/assumptions/3.md). -/
def State.withFetchWord (s : State) (nbits w : Nat) : State := placeCommand s (tableWord nbits w)

end Sys2Proof.Machine
end

