-- ==== Sys2Proof/Machine/HostNotation.lean ====
section
/-! DEFINITION. The spec's notation for host programs (spec/30_encoding.md rules R61, R62): each line is one primitive
access, each pseudo-instruction a list of them. Commands are atomic here, so the poll that follows a write to `CMD` is
nothing (rule R61). -/

namespace Sys2Proof.Machine

/-- `wr REG, v`. -/
def wr (r : Register) (v : Word) : HostAccess := .regWrite r.offset v
/-- `rd REG`. -/
def rd (r : Register) : HostAccess := .regRead r.offset
/-- `wb a, v`. -/
def wb (a : Nat) (v : Byte) : HostAccess := .bufWrite a v
/-- `rb a`. -/
def rb (a : Nat) : HostAccess := .bufRead a

/-- `derive`, `decrypt`, `detect`, `encrypt`: the write of the command's word to `CMD`. -/
def command (i : Instr) : List HostAccess := [wr .cmd (encode i)]

/-- `derive v`. -/
def deriveOf (v : Word) : List HostAccess := wr .n v :: command .derive

/-- `load b0 b1 ... b(m-1)`: the bytes at the offsets from 0 on, then `LEN`. (A load of 2^32 bytes or
more is refused at the offset `BUF_CAP`, so that its last line, with a length that wraps, is never reached:
notes/assumptions/15.md.) -/
def load (bs : List Byte) : List HostAccess :=
  bs.mapIdx (fun a v => wb a v) ++ [wr .len (BitVec.ofNat 32 bs.length)]

/-- The bytes of a text, one for each character, in order: the ASCII code of an ASCII character (rule R62). For a character
that has no ASCII code the spec gives no byte, and here the low 8 bits of its code point stand (DESIGN CHOICE, unsafe:
notes/assumptions/13.md). -/
def asciiBytes (text : String) : List Byte := text.toList.map fun c => BitVec.ofNat 8 c.toNat

/-- `load "text"` (rule R62, for a text of ASCII characters; see `asciiBytes` for any other). -/
def loadText (text : String) : List HostAccess := load (asciiBytes text)

/-- `dump`, where `m` is the value its first line reads from `LEN`. -/
def dump (m : Nat) : List HostAccess := rd .len :: (List.range m).map rb

end Sys2Proof.Machine
end

