-- ==== Sys2Proof/Machine/SourceSteps.lean ====
section
/-! DEFINITION. The source document's own step lists on a byte sequence, as the spec quotes them (spec/41_decrypt.md rule R84,
spec/43_encrypt.md rules R103, R104). No meaning calls them: statements compare the commands with them, on sequences for
which the steps are normative. Where they are not, the functions are total all the same: notes/assumptions/14.md. -/

namespace Sys2Proof.Machine

/-- XOR every byte at index `i` with `K[i mod 16]` (R84 step 4, R104 step 2). -/
def xorCycled (k : Key) (bs : List Byte) : List Byte := bs.mapIdx fun i b => b ^^^ keystreamAt k i

/-- Move the first 8 bytes to the end, preserving relative order (R104 step 3). A sequence of fewer than 8 bytes has no first
8 bytes, and stays as it is (DESIGN CHOICE for 1 to 7 bytes, notes/assumptions/14.md). -/
def moveFirst8ToEnd (bs : List Byte) : List Byte := bs.drop 8 ++ bs.take 8

/-- `Encrypt(bytes)`: derive the key from the length, XOR, rotate, put the header in front (R104 steps 1 to 4), for 0 bytes or
at least 8. For 1 to 7 bytes the source defines no result (rule R108), and that the XORed bytes then stand behind the header
unrotated is the model's choice (DESIGN CHOICE, notes/assumptions/14.md). The command `ENCRYPT` does not compute it: there it
ends `SHORT_PAYLOAD`. -/
def sourceEncrypt (p : List Byte) : List Byte :=
  header ++ moveFirst8ToEnd (xorCycled (deriveKey (BitVec.ofNat 32 p.length)) p)

/-- Position `i` (0 to 7) gets the value at position `len(bytes) - 8 + i`; the other positions keep theirs (R84 step 2). The
step has a sequence of at least 8 bytes; a shorter one stays as it is (DESIGN CHOICE, notes/assumptions/14.md). -/
def overwriteFirst8WithLast8 (bs : List Byte) : List Byte := bs.drop (bs.length - 8) ++ bs.drop 8

/-- `Decrypt(bytes)`: derive the key from the content length, overwrite, truncate, XOR (R84 steps 1 to 4), for a sequence that
has the header and a content of 0 bytes or at least 8. For a content of 1 to 7 bytes it is what rule R88 says the literal
formula would give, which is not normative: there `DECRYPT` ends `MALFORMED_CIPHERTEXT`. Without the header the source leaves
the primitive undefined (rule R82), and applying the same steps, with a content length of 0 below 8 bytes, is the model's
choice (DESIGN CHOICE, notes/assumptions/14.md). -/
def sourceDecrypt (c : List Byte) : List Byte :=
  xorCycled (deriveKey (BitVec.ofNat 32 (c.length - 8))) ((overwriteFirst8WithLast8 c).take (c.length - 8))

end Sys2Proof.Machine
end

