-- ==== Sys2Proof/Safety.lean ====
section
/-! DEFINITION. The terms claims use: the invariant of the machine, equality of what is architectural, and the accesses a
conforming host makes. -/

namespace Sys2Proof.Machine

/-- Every value `STATUS` can show on an idle block: 0 after reset, then `BUSY` = 0, `DONE` = 1 with one of the pairs of `CODE`
and `HDR` in the table of rule R116 (spec/95_test_vectors.md V14). -/
def legalStatus : List Word :=
  [0x000#32, 0x002#32, 0x006#32, 0x102#32, 0x206#32, 0x306#32, 0x402#32, 0x502#32, 0x602#32, 0x702#32]

/-- The machine's invariant. -/
structure State.Inv (s : State) : Prop where
  /-- The capacity is within its bounds (rule R8). -/
  cfg : s.cfg.wf
  /-- The buffer memory keeps its canonical form. -/
  mem : Memory.wf s.buf
  /-- No byte is stored at an offset the memory does not have (rule R42). -/
  range : ∀ c ∈ s.buf, c.1 < s.cfg.bufCap
  /-- `STATUS` shows an idle block, its reserved bits 0 and its outcome and flag a pair the block can give (rules R17,
  R116). -/
  status : s.status ∈ legalStatus
  /-- The key registers hold a key that the derivation gives (rules R16, R29). -/
  key : ∃ n, s.k = deriveKey n

/-- Everything a command leaves alone whatever its outcome: `N`, the parameters, and the host's side (rules R14, R30). -/
structure SameHostSide (s t : State) : Prop where
  cfg : t.cfg = s.cfg
  n : t.n = s.n
  host : t.host = s.host
  reads : t.reads = s.reads

/-- The block's architectural state is the same, byte for byte (rule R13). -/
structure SameBlock (s t : State) : Prop where
  n : t.n = s.n
  len : t.len = s.len
  k : t.k = s.k
  status : t.status = s.status
  bytes : ∀ a, byteAt t a = byteAt s a

/-- An access that a conforming host may make now: one that the spec gives an effect, and only a read of `STATUS` while the
block is busy (rules R28, R42, R148). -/
def Conforming (s : State) (a : HostAccess) : Prop :=
  a.wellFormed s.cfg.bufCap = true ∧ (statusBusy s.status = true → a = .regRead 0x04)

/-- The host program has ended: its last access has completed and the block is idle (rule R145). -/
def RunEnded (s : State) : Prop := s.host = [] ∧ statusBusy s.status = false

/-- `k` steps one after the other, stopping at the first that answers no next state. A host program of `k` accesses ends
with its `k`-th step (rule R145). -/
def runSteps : Nat → State → Host.Outcome State Fault Refusal
  | 0, s => .next s
  | k + 1, s =>
    match step s with
    | .next t => runSteps k t
    | .fault r => .fault r
    | .refused r => .refused r

end Sys2Proof.Machine
end

