-- ==== Sys2Proof/Certificates/Slice0/Obligations.lean ====
section
/-! DEFINITION. The statements for the provers. Each docstring names the rule or the section of spec/ that the statement
formalises, and the model's own choice where it rests on one. -/

open Sys2Proof Sys2Proof.Machine

/-! Command words (spec/30_encoding.md). -/

/-- The four words of the opcode map and the worked illegal words (30_encoding.md sections 3 and 9). -/
def Obligations.DecodeReadsTheTableWords : Prop :=
  decode 0x00000001#32 = .ok .derive ∧ decode 0x00000002#32 = .ok .decrypt ∧ decode 0x00000003#32 = .ok .detect ∧
  decode 0x00000004#32 = .ok .encrypt ∧ decode 0x00000000#32 = .error .unknownOp ∧
  decode 0x00000005#32 = .error .unknownOp ∧ decode 0x00000104#32 = .error .upperBitsSet ∧
  decode 0x80000004#32 = .error .upperBitsSet

/-- Rule R53: both forms of the well-formedness of a command word. -/
def Obligations.WellFormedWordsAreTheFour : Prop :=
  ∀ w : Word,
    (commandWordWellFormed w = true ↔
      w.toNat / 256 = 0 ∧ (w.toNat % 256 = 1 ∨ w.toNat % 256 = 2 ∨ w.toNat % 256 = 3 ∨ w.toNat % 256 = 4)) ∧
    (commandWordWellFormed w = true ↔ w = 0x00000001#32 ∨ w = 0x00000002#32 ∨ w = 0x00000003#32 ∨ w = 0x00000004#32)

/-- Decode and encode agree in both directions, on all 32-bit words and in the opcode table's numbering; a word is rejected
under the name of its fault (30_encoding.md sections 1 to 6; the names of the rejections are the model's). -/
def Obligations.DecodeEncodeAgree : Prop :=
  (∀ i : Instr, i.wellFormed = true → decode (encode i) = .ok i ∧ decodeTableWord 32 (encode i).toNat = some i) ∧
  (∀ (w : Word) (i : Instr), decode w = .ok i → w = encode i) ∧
  (∀ w : Word, decode w = .error .upperBitsSet ↔ 256 ≤ w.toNat) ∧
  (∀ w : Word, decode w = .error .unknownOp ↔ w.toNat = 0 ∨ (5 ≤ w.toNat ∧ w.toNat ≤ 255))

/-- Rules R56 and R126: an illegal word written to `CMD` of an idle block changes nothing but `STATUS`. -/
def Obligations.IllegalWordsChangeOnlyStatus : Prop :=
  ∀ (s : State) (w : Word) (rest : List HostAccess),
    s.host = .regWrite 0x00 w :: rest → statusBusy s.status = false →
    (w.toNat % 256 = 0 ∨ 5 ≤ w.toNat % 256 ∨ w.toNat / 256 ≠ 0) →
    step s = .next { s with host := rest, status := 0x00000702#32 }

/-- A write of a command's word to `CMD` of an idle block runs exactly that command (30_encoding.md section 6). -/
def Obligations.StepRunsTheDecodedCommand : Prop :=
  ∀ (s : State) (w : Word) (i : Instr) (rest : List HostAccess),
    s.host = .regWrite 0x00 w :: rest → statusBusy s.status = false → decode w = .ok i → i.wellFormed = true →
    step s = exec i { s with host := rest }

/-- The model's own placing of a command (notes/assumptions/3.md): the very next step runs it, with `BUSY` = 0. -/
def Obligations.PlacedCommandRunsNext : Prop :=
  ∀ (s : State) (i : Instr),
    step (s.withFetchWord 32 (encode i).toNat) = exec i { s with status := s.status &&& 0xFFFFFFFE#32 }

/-! The host's accesses (spec/10_state.md sections 4 and 10, spec/20_memory.md, spec/70_reset_and_hazards.md section 3). -/

/-- What a read of each register of an idle block gives (the reserved bits of `STATUS` read as 0), and that it changes nothing
else (10_state.md sections 2, 4, 10; the log `reads` is the model's field). -/
def Obligations.RegisterReadsGiveTheRegister : Prop :=
  ∀ (s : State) (off : Nat) (rest : List HostAccess),
    s.host = .regRead off :: rest → statusBusy s.status = false → off % 4 = 0 → off ≤ 0x1C →
    ∃ v : Word, step s = .next { s with host := rest, reads := .register off v :: s.reads } ∧
      (off = 0x00 → v = 0#32) ∧ (off = 0x04 → v = s.status &&& 0x00000F07#32) ∧ (off = 0x08 → v = s.len) ∧ (off = 0x0C → v = s.n) ∧
      (off = 0x10 → v = s.k.k0) ∧ (off = 0x14 → v = s.k.k1) ∧ (off = 0x18 → v = s.k.k2) ∧ (off = 0x1C → v = s.k.k3)

/-- Writes to read-only registers, reads of `CMD`, other offsets, other widths (of either space), and a busy block
(10_state.md section 10, 20_memory.md sections 3 and 4, 70_reset_and_hazards.md section 3, 93_implementation_defined.md U6
and U7). The names of the refusals, and that a busy block's is the one whatever the access, are the model's
(notes/assumptions/7.md). -/
def Obligations.RegisterAccessRules : Prop :=
  ∀ (s : State) (rest : List HostAccess),
    (statusBusy s.status = false →
      (∀ (off : Nat) (v : Word), s.host = .regWrite off v :: rest →
        off = 0x04 ∨ off = 0x10 ∨ off = 0x14 ∨ off = 0x18 ∨ off = 0x1C → step s = .next { s with host := rest }) ∧
      (s.host = .regRead 0x00 :: rest →
        step s = .next { s with host := rest, reads := .register 0x00 0#32 :: s.reads }) ∧
      (∀ (off : Nat) (v : Word), ¬ (off % 4 = 0 ∧ off ≤ 0x1C) →
        (s.host = .regRead off :: rest ∨ s.host = .regWrite off v :: rest) →
        step s = .refused (.registerOffset off)) ∧
      (∀ (sp : Space) (off width : Nat), s.host = .otherWidth sp off width :: rest →
        step s = .refused (.accessWidth width))) ∧
    (statusBusy s.status = true →
      ∀ a : HostAccess, s.host = a :: rest → a ≠ .regRead 0x04 → step s = .refused .accessWhileBusy)

/-- `LEN` and `N` store any 32-bit value the host writes (10_state.md sections 2 and 10). -/
def Obligations.LenAndNStoreAnyValue : Prop :=
  ∀ (s : State) (v : Word) (rest : List HostAccess), statusBusy s.status = false →
    (s.host = .regWrite 0x08 v :: rest → step s = .next { s with host := rest, len := v }) ∧
    (s.host = .regWrite 0x0C v :: rest → step s = .next { s with host := rest, n := v })

/-- Byte accesses of the host to the buffer: a write puts its byte at its offset and leaves every other byte and register
alone, a read gives the byte, and an offset at or above `BUF_CAP` is refused (20_memory.md sections 3 and 4). -/
def Obligations.BufferAccesses : Prop :=
  ∀ (s : State) (a : Nat) (v : Byte) (rest : List HostAccess), statusBusy s.status = false →
    (s.host = .bufWrite a v :: rest → a < s.cfg.bufCap →
      ∃ t, step s = .next t ∧ byteAt t a = v ∧ (∀ x, x ≠ a → byteAt t x = byteAt s x) ∧
        t = { s with host := rest, buf := t.buf }) ∧
    (s.host = .bufRead a :: rest → a < s.cfg.bufCap →
      step s = .next { s with host := rest, reads := .byte a (byteAt s a) :: s.reads }) ∧
    (s.host = .bufWrite a v :: rest ∨ s.host = .bufRead a :: rest → s.cfg.bufCap ≤ a →
      step s = .refused (.bufferOffset a))

/-- While `BUSY` is 1 the host may only read `STATUS`, and reads `BUSY` as 1 (70_reset_and_hazards.md section 3). The model's:
that the reserved bits read as 0 beside the free fields (notes/assumptions/6.md), and that one name refuses every other access
(notes/assumptions/7.md). -/
def Obligations.BusyBlockAnswersOnlyStatusReads : Prop :=
  ∀ (s : State) (a : HostAccess) (rest : List HostAccess), s.host = a :: rest → statusBusy s.status = true →
    (a ≠ .regRead 0x04 → step s = .refused .accessWhileBusy) ∧
    (a = .regRead 0x04 → ∃ v : Word, step s = .next { s with host := rest, reads := .register 0x04 v :: s.reads } ∧
      statusBusy v = true ∧ v &&& 0xFFFFF0F8#32 = 0#32)

/-- A step stops on a host access that the spec gives no effect, on nothing else, and always with a refusal
(10_state.md section 10, 20_memory.md section 4, 70_reset_and_hazards.md section 3). -/
def Obligations.StepStopsExactlyOnNonConformingAccess : Prop :=
  ∀ (s : State) (a : HostAccess) (rest : List HostAccess), s.host = a :: rest →
    (Conforming s a → ∃ t, step s = .next t ∧ t.host = rest) ∧ (¬ Conforming s a → ∃ r, step s = .refused r)

/-- Only a write to `CMD` starts a command: no other event writes `STATUS` or the key (30_encoding.md section 6). -/
def Obligations.OnlyCmdWritesStartCommands : Prop :=
  ∀ s t : State, step s = .next t → (∀ (w : Word) (rest : List HostAccess), s.host ≠ .regWrite 0x00 w :: rest) →
    t.status = s.status ∧ t.k = s.k

/-- Reads change nothing in the block, and the write of a value already stored changes nothing (20_memory.md section 4). -/
def Obligations.AccessesHaveNoSideEffect : Prop :=
  ∀ (s t : State) (rest : List HostAccess), step s = .next t →
    (∀ off, s.host = .regRead off :: rest → SameBlock s t) ∧
    (∀ a, s.host = .bufRead a :: rest → SameBlock s t) ∧
    (∀ a, s.host = .bufWrite a (byteAt s a) :: rest → SameBlock s t) ∧
    (s.host = .regWrite 0x08 s.len :: rest → SameBlock s t) ∧ (s.host = .regWrite 0x0C s.n :: rest → SameBlock s t)

/-! Reset and the invariant (spec/10_state.md sections 2, 11; spec/95_test_vectors.md section 6). -/

/-- Rule R29, for every block: the registers as listed, the sequencer idle, and each byte of `BUF` the free value of its
power-on contents. The reset state of the interface is one of these. -/
def Obligations.ResetLeavesTheListedValues : Prop :=
  (∀ c : Config,
    (State.resetWith c).status = 0x00000000#32 ∧ (State.resetWith c).len = 0#32 ∧ (State.resetWith c).n = 0#32 ∧
    (State.resetWith c).k = ⟨0#32, 0#32, 0#32, 0#32⟩ ∧ (State.resetWith c).k = deriveKey 0#32 ∧
    statusBusy (State.resetWith c).status = false ∧
    ∀ a, byteAt (State.resetWith c) a = Config.powerOnByte c.powerOn a) ∧
  ∃ c : Config, c.wf ∧ State.reset = State.resetWith c

/-- Every block meets the invariant right after reset, the interface's reset state among them. -/
def Obligations.ResetMeetsInvariant : Prop :=
  (∀ c : Config, c.wf → (State.resetWith c).Inv) ∧ State.reset.Inv

/-- Every step keeps the invariant: memory canonical and inside the capacity, `STATUS` one of the words an idle block can
show, the key registers a derived key, the capacity within its bounds. -/
def Obligations.StepKeepsInvariant : Prop :=
  ∀ s t : State, s.Inv → step s = .next t → t.Inv

/-! `STATUS` (spec/10_state.md sections 2 and 7, spec/60_exceptions.md). -/

/-- The word a command leaves in `STATUS`: `BUSY` 0, `DONE` 1, a code from 0 to 7, every reserved bit 0 (10_state.md
section 2). -/
def Obligations.CommandsRewriteTheWholeStatus : Prop :=
  ∀ (w : Word) (s t : State), issue w s = .next t →
    statusBusy t.status = false ∧ statusDone t.status = true ∧ (statusCode t.status).toNat ≤ 7 ∧
    t.status = BitVec.ofNat 32 (2 + 0x100 * (statusCode t.status).toNat + 4 * (statusHdr t.status).toNat)

/-- Rule R117: an outcome other than `OK` leaves everything but `STATUS` as it was. -/
def Obligations.ErrorsChangeOnlyStatus : Prop :=
  ∀ (w : Word) (s t : State), issue w s = .next t → statusCode t.status ≠ 0 →
    t = { s with
      status := BitVec.ofNat 32 (2 + 0x100 * (statusCode t.status).toNat + 4 * (statusHdr t.status).toNat) }

/-- Rule R128: the outcome of a command is the first that applies in the fixed order. -/
def Obligations.OutcomesInPriorityOrder : Prop :=
  ∀ (w : Word) (s t : State), issue w s = .next t →
    statusCode t.status =
      if w.toNat = 0 ∨ 4 < w.toNat then 7
      else if w.toNat ≠ 1 ∧ s.cfg.bufCap < s.len.toNat then 6
      else if w.toNat = 2 ∧ hasHeader s = false then 1
      else if w.toNat = 4 ∧ hasHeader s = true then 2
      else if w.toNat = 2 ∧ 1 ≤ s.len.toNat - 8 ∧ s.len.toNat - 8 ≤ 7 then 3
      else if w.toNat = 4 ∧ 1 ≤ s.len.toNat ∧ s.len.toNat ≤ 7 then 4
      else if w.toNat = 4 ∧ s.cfg.bufCap < s.len.toNat + 8 then 5
      else 0

/-- Rule R23: the header flag after each command and outcome, that nothing else writes it, that no command reads it, and its
reset value. -/
def Obligations.HeaderFlagDescribesTheBufferBefore : Prop :=
  (∀ (i : Instr) (s t : State), exec i s = .next t →
    statusHdr t.status =
      (decide (i ≠ .derive) && decide (s.len.toNat ≤ s.cfg.bufCap) && hasHeader s)) ∧
  (∀ (w : Word) (s t : State), (∀ i, w ≠ encode i) → issue w s = .next t → statusHdr t.status = false) ∧
  (∀ s t : State, step s = .next t → (∀ (w : Word) (rest : List HostAccess), s.host ≠ .regWrite 0x00 w :: rest) →
    statusHdr t.status = statusHdr s.status) ∧
  (∀ (i : Instr) (s : State) (w : Word), exec i { s with status := w } = exec i s) ∧
  statusHdr State.reset.status = false

/-- Rule R114: a command always completes, whatever the word and the state, and says how in `STATUS`. -/
def Obligations.CommandsAlwaysComplete : Prop :=
  (∀ (i : Instr) (s : State), ∃ t, exec i s = .next t ∧ statusDone t.status = true ∧ statusBusy t.status = false) ∧
  (∀ (w : Word) (s : State), ∃ t, issue w s = .next t ∧ statusDone t.status = true ∧ statusBusy t.status = false)

/-- `DONE` stays 1 once a command has completed, and only a write to `CMD` makes it 1 (10_state.md section 2). -/
def Obligations.DoneMarksTheFirstCompletion : Prop :=
  ∀ s t : State, step s = .next t →
    (statusDone s.status = true → statusDone t.status = true) ∧
    (statusDone s.status = false → statusDone t.status = true →
      ∃ (w : Word) (rest : List HostAccess), s.host = .regWrite 0x00 w :: rest)

/-! Key derivation (spec/40_key_derivation.md). -/

/-- Rule R70: the source's listing, line by line. -/
def Obligations.DeriveKeyFollowsTheListing : Prop :=
  ∀ n : Word,
    let mix2' : Word → Word := fun x => (((x <<< 13) ^^^ x) >>> 17) ^^^ (x <<< 13) ^^^ x
    let mix1 := ((n ^^^ (n <<< 13)) >>> 17) ^^^ n ^^^ (n <<< 13)
    let a := (32#32 * mix1) ^^^ mix1
    let b := mix2' a
    let c := (32#32 * b) ^^^ b
    let d := mix2' c
    let e := (32#32 * d) ^^^ d
    let f := mix2' e
    let g := f ^^^ (32#32 * f)
    deriveKey n = ⟨a, c, e, g⟩

/-- Rule R78: `DERIVE` completes in every state, with the derived key and `STATUS` = 0x00000002, and writes nothing else. -/
def Obligations.DeriveCompletes : Prop :=
  ∀ s : State, exec .derive s = .next { s with k := deriveKey s.n, status := 0x00000002#32 }

/-- The step view: each key word is the three shift-XOR updates of the one before (40_key_derivation.md section 3). -/
def Obligations.KeyWordsAreShiftXorSteps : Prop :=
  let S : Word → Word := fun x =>
    let x := x ^^^ (x <<< 13)
    let x := x ^^^ (x >>> 17)
    x ^^^ (x <<< 5)
  ∀ n : Word, deriveKey n = ⟨S n, S (S n), S (S (S n)), S (S (S (S n)))⟩

/-- The step is a bijection that fixes 0, so two lengths never give one key, and no word of the key of a non-zero length is
0 (40_key_derivation.md section 3). -/
def Obligations.KeyStepIsABijection : Prop :=
  Function.Bijective (fun n => (deriveKey n).k0) ∧ (deriveKey 0#32).k0 = 0#32 ∧
  ∀ n : Word, n ≠ 0#32 →
    (deriveKey n).k0 ≠ 0#32 ∧ (deriveKey n).k1 ≠ 0#32 ∧ (deriveKey n).k2 ≠ 0#32 ∧ (deriveKey n).k3 ≠ 0#32

/-- Rule R35: the keystream block is the four words in order, each little-endian: put back together, most significant byte
first, four bytes give their word. -/
def Obligations.KeystreamIsLittleEndian : Prop :=
  ∀ k : Key,
    keystreamByte k 3 ++ keystreamByte k 2 ++ keystreamByte k 1 ++ keystreamByte k 0 = k.k0 ∧
    keystreamByte k 7 ++ keystreamByte k 6 ++ keystreamByte k 5 ++ keystreamByte k 4 = k.k1 ∧
    keystreamByte k 11 ++ keystreamByte k 10 ++ keystreamByte k 9 ++ keystreamByte k 8 = k.k2 ∧
    keystreamByte k 15 ++ keystreamByte k 14 ++ keystreamByte k 13 ++ keystreamByte k 12 = k.k3

/-! The header detector (spec/42_header_detect.md). -/

/-- Rule R95: the predicate, byte by byte. -/
def Obligations.DetectorComparesTheFirstEightBytes : Prop :=
  ∀ s : State, hasHeader s = true ↔
    8 ≤ s.len.toNat ∧ byteAt s 0 = 0x25#8 ∧ byteAt s 1 = 0x42#8 ∧ byteAt s 2 = 0x49#8 ∧ byteAt s 3 = 0x4E#8 ∧
    byteAt s 4 = 0x5F#8 ∧ byteAt s 5 = 0x32#8 ∧ byteAt s 6 = 0x2E#8 ∧ byteAt s 7 = 0x30#8

/-- Rule R96: `DETECT` completes in every state and writes nothing but `STATUS`. -/
def Obligations.DetectCompletes : Prop :=
  ∀ s : State,
    (s.len.toNat ≤ s.cfg.bufCap →
      exec .detect s = .next { s with status := if hasHeader s then 0x00000006#32 else 0x00000002#32 }) ∧
    (s.cfg.bufCap < s.len.toNat → exec .detect s = .next { s with status := 0x00000602#32 })

/-- Detection twice gives the same `STATUS` and changes nothing more (42_header_detect.md, detection laws). -/
def Obligations.DetectionIsIdempotent : Prop :=
  ∀ s t : State, exec .detect s = .next t → exec .detect t = .next t

/-! Decryption (spec/41_decrypt.md). -/

/-- Rules R86, R89 and R90: `DECRYPT` on a buffer length the memory can hold, case by case, and what each case leaves. -/
def Obligations.DecryptCompletes : Prop :=
  ∀ s : State, s.len.toNat ≤ s.cfg.bufCap →
    (hasHeader s = false → exec .decrypt s = .next { s with status := 0x00000102#32 }) ∧
    (hasHeader s = true → 9 ≤ s.len.toNat → s.len.toNat ≤ 15 →
      exec .decrypt s = .next { s with status := 0x00000306#32 }) ∧
    (hasHeader s = true → s.len.toNat = 8 ∨ 16 ≤ s.len.toNat →
      ∃ t, exec .decrypt s = .next t ∧
        t = { s with len := t.len, k := t.k, status := 0x00000006#32, buf := t.buf } ∧
        t.len.toNat = s.len.toNat - 8 ∧ t.k = deriveKey (BitVec.ofNat 32 (s.len.toNat - 8)) ∧
        ∀ j, byteAt t j =
          if s.len.toNat - 8 ≤ j then byteAt s j
          else if j < 8 then byteAt s (s.len.toNat - 8 + j) ^^^ keystreamByte t.k (j % 16)
          else byteAt s j ^^^ keystreamByte t.k (j % 16))

/-- Rule R84: whenever `DECRYPT` ends `OK`, the new sequence is what the source's steps make of the old one. -/
def Obligations.DecryptFollowsTheSourceSteps : Prop :=
  ∀ s t : State, exec .decrypt s = .next t → statusCode t.status = 0 → contents t = sourceDecrypt (contents s)

/-! Encryption (spec/43_encrypt.md). -/

/-- Rule R106: `ENCRYPT` on a buffer length the memory can hold, case by case, and what each case leaves. -/
def Obligations.EncryptCompletes : Prop :=
  ∀ s : State, s.cfg.wf → s.len.toNat ≤ s.cfg.bufCap →
    (hasHeader s = true → exec .encrypt s = .next { s with status := 0x00000206#32 }) ∧
    (hasHeader s = false → 1 ≤ s.len.toNat → s.len.toNat ≤ 7 →
      exec .encrypt s = .next { s with status := 0x00000402#32 }) ∧
    (hasHeader s = false → s.len.toNat = 0 ∨ 8 ≤ s.len.toNat → s.cfg.bufCap < s.len.toNat + 8 →
      exec .encrypt s = .next { s with status := 0x00000502#32 }) ∧
    (hasHeader s = false → s.len.toNat = 0 ∨ 8 ≤ s.len.toNat → s.len.toNat + 8 ≤ s.cfg.bufCap →
      ∃ t, exec .encrypt s = .next t ∧
        t = { s with len := t.len, k := t.k, status := 0x00000002#32, buf := t.buf } ∧
        t.len.toNat = s.len.toNat + 8 ∧ t.k = deriveKey s.len ∧
        ∀ j, byteAt t j =
          if j < 8 then [0x25#8, 0x42#8, 0x49#8, 0x4E#8, 0x5F#8, 0x32#8, 0x2E#8, 0x30#8].getD j 0#8
          else if j < s.len.toNat then byteAt s j ^^^ keystreamByte t.k (j % 16)
          else if j < s.len.toNat + 8 then
            byteAt s (j - s.len.toNat) ^^^ keystreamByte t.k ((j - s.len.toNat) % 16)
          else byteAt s j)

/-- Rule R104: whenever `ENCRYPT` ends `OK`, the new sequence is what the source's steps make of the old one. -/
def Obligations.EncryptFollowsTheSourceSteps : Prop :=
  ∀ s t : State, s.cfg.wf → exec .encrypt s = .next t → statusCode t.status = 0 →
    contents t = sourceEncrypt (contents s)

/-- Round trip on the block: after an `ENCRYPT` that ends `OK`, a `DECRYPT` ends `OK` and gives the plaintext and its length
back (43_encrypt.md section 4). -/
def Obligations.DecryptUndoesEncrypt : Prop :=
  ∀ s t : State, s.cfg.wf → exec .encrypt s = .next t → statusCode t.status = 0 →
    ∃ u, exec .decrypt t = .next u ∧ statusCode u.status = 0 ∧ u.len = s.len ∧ contents u = contents s

/-- The converse: after a `DECRYPT` that ends `OK` on a plaintext that does not itself begin with the header, an `ENCRYPT` ends
`OK` and gives the ciphertext back (43_encrypt.md section 4). -/
def Obligations.EncryptUndoesDecrypt : Prop :=
  ∀ s t : State, s.cfg.wf → exec .decrypt s = .next t → statusCode t.status = 0 → hasHeader t = false →
    ∃ u, exec .encrypt t = .next u ∧ statusCode u.status = 0 ∧ u.len = s.len ∧ contents u = contents s

/-- No double encryption: after an `ENCRYPT` that ends `OK`, `DETECT` finds the header and a second `ENCRYPT` is turned away
with nothing changed (43_encrypt.md section 4, 42_header_detect.md detection laws). -/
def Obligations.EncryptedBufferIsNotEncryptedAgain : Prop :=
  ∀ s t : State, s.cfg.wf → exec .encrypt s = .next t → statusCode t.status = 0 →
    exec .detect t = .next { t with status := 0x00000006#32 } ∧
    exec .encrypt t = .next { t with status := 0x00000206#32 }

/-- The empty plaintext: `ENCRYPT` with `LEN` = 0 leaves the bare header and an all-zero key, and `DECRYPT` then gives the empty
sequence and writes no byte (43_encrypt.md section 3, 41_decrypt.md section 3). -/
def Obligations.EmptyPlaintextRoundTrips : Prop :=
  ∀ s : State, s.cfg.wf → s.len = 0#32 →
    ∃ t u, exec .encrypt s = .next t ∧ t.len = 8#32 ∧ contents t = header ∧ t.k = ⟨0#32, 0#32, 0#32, 0#32⟩ ∧
      exec .decrypt t = .next u ∧ u.status = 0x00000006#32 ∧ u.len = 0#32 ∧ u.k = ⟨0#32, 0#32, 0#32, 0#32⟩ ∧
      ∀ a, byteAt u a = byteAt t a

/-! Rules over all commands (spec/10_state.md, spec/20_memory.md, spec/60_exceptions.md). -/

/-- Rule R125: a length above the capacity stops every buffer command with `BAD_LENGTH` before the header test; `DERIVE` does
not look at it. -/
def Obligations.LengthAboveCapacityIsReportedFirst : Prop :=
  ∀ s : State, s.cfg.bufCap < s.len.toNat →
    exec .decrypt s = .next { s with status := 0x00000602#32 } ∧
    exec .detect s = .next { s with status := 0x00000602#32 } ∧
    exec .encrypt s = .next { s with status := 0x00000602#32 } ∧
    exec .derive s = .next { s with k := deriveKey s.n, status := 0x00000002#32 }

/-- The frame of every command: `N`, the parameters and the host's side are untouched; `DERIVE` and `DETECT` write no memory and
no `LEN`; a command writes a byte only below the old or the new length (20_memory.md section 4). -/
def Obligations.CommandFrame : Prop :=
  ∀ (i : Instr) (s t : State), s.cfg.wf → exec i s = .next t →
    SameHostSide s t ∧
    (i = .derive ∨ i = .detect → t.len = s.len ∧ t.buf = s.buf) ∧ (i = .detect → t.k = s.k) ∧
    (i = .decrypt → statusCode t.status = 0 → ∀ a, s.len.toNat - 8 ≤ a → byteAt t a = byteAt s a) ∧
    (i = .encrypt → statusCode t.status = 0 → ∀ a, s.len.toNat + 8 ≤ a → byteAt t a = byteAt s a) ∧
    (statusCode t.status ≠ 0 → t.len = s.len ∧ t.k = s.k ∧ t.buf = s.buf)

/-- Rule R16: when each command writes the key registers, with what, and that no host write changes them and no command reads
them. -/
def Obligations.KeyRegisterWrites : Prop :=
  (∀ (i : Instr) (s t : State), exec i s = .next t →
    t.k = if statusCode t.status ≠ 0 then s.k else
      match i with
      | .derive => deriveKey s.n
      | .decrypt => deriveKey (s.len - 8#32)
      | .detect => s.k
      | .encrypt => deriveKey s.len) ∧
  (∀ (s t : State) (off : Nat) (v : Word) (rest : List HostAccess), off = 0x10 ∨ off = 0x14 ∨ off = 0x18 ∨ off = 0x1C →
    s.host = .regWrite off v :: rest → step s = .next t → t.k = s.k) ∧
  (∀ (i : Instr) (s t : State) (k : Key), exec i s = .next t → ∃ u, exec i { s with k := k } = .next u ∧
    u = { t with k := u.k })

/-- Rule R15: when `LEN` changes and to what, without wrapping; a host write stores any value. -/
def Obligations.LenRegisterWrites : Prop :=
  (∀ (i : Instr) (s t : State), s.cfg.wf → exec i s = .next t →
    t.len.toNat =
      if i = .encrypt ∧ statusCode t.status = 0 then s.len.toNat + 8
      else if i = .decrypt ∧ statusCode t.status = 0 then s.len.toNat - 8
      else s.len.toNat) ∧
  (∀ s t : State, exec .decrypt s = .next t → statusCode t.status = 0 → 8 ≤ s.len.toNat) ∧
  (∀ i : Instr, i ≠ .derive → ∀ s t : State, s.cfg.bufCap < s.len.toNat → exec i s = .next t → statusCode t.status = 6) ∧
  (∀ (s : State) (v : Word) (rest : List HostAccess), s.host = .regWrite 0x08 v :: rest → statusBusy s.status = false →
    ∃ t, step s = .next t ∧ t.len = v)

/-- Rule R14: `N` changes only by a host write to it, which stores any value; only `DERIVE` reads it. -/
def Obligations.OperandRegisterBelongsToTheHost : Prop :=
  (∀ s t : State, step s = .next t → t.n ≠ s.n →
    ∃ (v : Word) (rest : List HostAccess), s.host = .regWrite 0x0C v :: rest ∧ t.n = v) ∧
  (∀ (s : State) (v : Word) (rest : List HostAccess), s.host = .regWrite 0x0C v :: rest → statusBusy s.status = false →
    step s = .next { s with host := rest, n := v }) ∧
  (∀ (i : Instr) (s t : State) (v : Word), i ≠ .derive → exec i s = .next t →
    exec i { s with n := v } = .next { t with n := v })

/-- Statelessness: what a command answers depends on the command, `N`, `LEN` and `BUF[0..LEN)` alone (for one capacity): not on
the key, `STATUS`, bytes from `LEN` on, or anything earlier (10_state.md section 9). -/
def Obligations.ResultsDependOnTheInputsOnly : Prop :=
  ∀ (i : Instr) (s s' : State), s'.cfg.bufCap = s.cfg.bufCap → s'.n = s.n → s'.len = s.len →
    (∀ a, a < s.len.toNat → byteAt s' a = byteAt s a) →
    ∃ t t', exec i s = .next t ∧ exec i s' = .next t' ∧ t'.status = t.status ∧ t'.len = t.len ∧
      (statusCode t.status = 0 → i ≠ .detect → t'.k = t.k) ∧ ∀ a, a < t.len.toNat → byteAt t' a = byteAt t a

/-- More narrowly: `DERIVE` depends on `N` alone, and `DETECT` on `LEN` and the first 8 bytes of the sequence (for one capacity)
(10_state.md section 9). -/
def Obligations.DeriveAndDetectReadNothingElse : Prop :=
  (∀ s s' : State, s'.n = s.n →
    ∃ t t', exec .derive s = .next t ∧ exec .derive s' = .next t' ∧ t'.k = t.k ∧ t'.status = t.status) ∧
  (∀ s s' : State, s'.cfg.bufCap = s.cfg.bufCap → s'.len = s.len →
    (∀ a, a < s.len.toNat → a < 8 → byteAt s' a = byteAt s a) →
    ∃ t t', exec .detect s = .next t ∧ exec .detect s' = .next t' ∧ t'.status = t.status)

/-! Host programs (spec/30_encoding.md section 7, spec/70_reset_and_hazards.md section 2). -/

/-- Each step takes the first access the host has still to make, and a block without one waits (10_state.md section 6; waiting
as a step is the model's choice, notes/assumptions/4.md). So a run of as many steps as accesses, if none is refused, takes
them all, and from an idle block it ends the host program: the last access has completed and `BUSY` is 0
(70_reset_and_hazards.md section 2). From an idle block it does complete where the spec gives each access an effect. -/
def Obligations.HostProgramsEnd : Prop :=
  (∀ s t : State, step s = .next t →
    (s.host = [] ∧ t = s) ∨ ∃ (a : HostAccess) (rest : List HostAccess), s.host = a :: rest ∧ t.host = rest) ∧
  (∀ s t : State, runSteps s.host.length s = .next t → t.host = []) ∧
  (∀ s t : State, statusBusy s.status = false → runSteps s.host.length s = .next t → RunEnded t) ∧
  ∀ s : State, statusBusy s.status = false → (∀ a ∈ s.host, a.wellFormed s.cfg.bufCap = true) →
    ∃ t, runSteps s.host.length s = .next t ∧ RunEnded t

/-- `load` puts exactly its bytes into the buffer as the sequence `BUF[0..LEN)`, from any idle state whose memory can hold
them, and leaves every other byte and every other register as it was (30_encoding.md section 7). -/
def Obligations.LoadFillsTheBuffer : Prop :=
  ∀ (s : State) (bs : List Byte), s.cfg.wf → statusBusy s.status = false → bs.length ≤ s.cfg.bufCap →
    s.host = load bs →
    ∃ t : State, runSteps (load bs).length s = .next t ∧ contents t = bs ∧
      (∀ a, bs.length ≤ a → byteAt t a = byteAt s a) ∧
      t = { s with host := [], len := BitVec.ofNat 32 bs.length, buf := t.buf }
end

