-- ==== Sys2Proof/Laws/State.lean ====
section
/-! SUPPORT. One lemma per field per named update of the state, so that no later proof unfolds a record update, and the
state after reset field by field. -/

namespace Sys2Proof.Machine

@[simp] theorem setN_cfg (s : State) (v : Word) : (s.setN v).cfg = s.cfg := rfl
@[simp] theorem setN_n (s : State) (v : Word) : (s.setN v).n = v := rfl
@[simp] theorem setN_len (s : State) (v : Word) : (s.setN v).len = s.len := rfl
@[simp] theorem setN_k (s : State) (v : Word) : (s.setN v).k = s.k := rfl
@[simp] theorem setN_status (s : State) (v : Word) : (s.setN v).status = s.status := rfl
@[simp] theorem setN_buf (s : State) (v : Word) : (s.setN v).buf = s.buf := rfl
@[simp] theorem setN_host (s : State) (v : Word) : (s.setN v).host = s.host := rfl
@[simp] theorem setN_reads (s : State) (v : Word) : (s.setN v).reads = s.reads := rfl

@[simp] theorem setLen_cfg (s : State) (v : Word) : (s.setLen v).cfg = s.cfg := rfl
@[simp] theorem setLen_n (s : State) (v : Word) : (s.setLen v).n = s.n := rfl
@[simp] theorem setLen_len (s : State) (v : Word) : (s.setLen v).len = v := rfl
@[simp] theorem setLen_k (s : State) (v : Word) : (s.setLen v).k = s.k := rfl
@[simp] theorem setLen_status (s : State) (v : Word) : (s.setLen v).status = s.status := rfl
@[simp] theorem setLen_buf (s : State) (v : Word) : (s.setLen v).buf = s.buf := rfl
@[simp] theorem setLen_host (s : State) (v : Word) : (s.setLen v).host = s.host := rfl
@[simp] theorem setLen_reads (s : State) (v : Word) : (s.setLen v).reads = s.reads := rfl

@[simp] theorem setKey_cfg (s : State) (k : Key) : (s.setKey k).cfg = s.cfg := rfl
@[simp] theorem setKey_n (s : State) (k : Key) : (s.setKey k).n = s.n := rfl
@[simp] theorem setKey_len (s : State) (k : Key) : (s.setKey k).len = s.len := rfl
@[simp] theorem setKey_k (s : State) (k : Key) : (s.setKey k).k = k := rfl
@[simp] theorem setKey_status (s : State) (k : Key) : (s.setKey k).status = s.status := rfl
@[simp] theorem setKey_buf (s : State) (k : Key) : (s.setKey k).buf = s.buf := rfl
@[simp] theorem setKey_host (s : State) (k : Key) : (s.setKey k).host = s.host := rfl
@[simp] theorem setKey_reads (s : State) (k : Key) : (s.setKey k).reads = s.reads := rfl

@[simp] theorem setStatus_cfg (s : State) (w : Word) : (s.setStatus w).cfg = s.cfg := rfl
@[simp] theorem setStatus_n (s : State) (w : Word) : (s.setStatus w).n = s.n := rfl
@[simp] theorem setStatus_len (s : State) (w : Word) : (s.setStatus w).len = s.len := rfl
@[simp] theorem setStatus_k (s : State) (w : Word) : (s.setStatus w).k = s.k := rfl
@[simp] theorem setStatus_status (s : State) (w : Word) : (s.setStatus w).status = w := rfl
@[simp] theorem setStatus_buf (s : State) (w : Word) : (s.setStatus w).buf = s.buf := rfl
@[simp] theorem setStatus_host (s : State) (w : Word) : (s.setStatus w).host = s.host := rfl
@[simp] theorem setStatus_reads (s : State) (w : Word) : (s.setStatus w).reads = s.reads := rfl

@[simp] theorem setBuf_cfg (s : State) (m : Memory) : (s.setBuf m).cfg = s.cfg := rfl
@[simp] theorem setBuf_n (s : State) (m : Memory) : (s.setBuf m).n = s.n := rfl
@[simp] theorem setBuf_len (s : State) (m : Memory) : (s.setBuf m).len = s.len := rfl
@[simp] theorem setBuf_k (s : State) (m : Memory) : (s.setBuf m).k = s.k := rfl
@[simp] theorem setBuf_status (s : State) (m : Memory) : (s.setBuf m).status = s.status := rfl
@[simp] theorem setBuf_buf (s : State) (m : Memory) : (s.setBuf m).buf = m := rfl
@[simp] theorem setBuf_host (s : State) (m : Memory) : (s.setBuf m).host = s.host := rfl
@[simp] theorem setBuf_reads (s : State) (m : Memory) : (s.setBuf m).reads = s.reads := rfl

@[simp] theorem setHost_cfg (s : State) (p : List HostAccess) : (s.setHost p).cfg = s.cfg := rfl
@[simp] theorem setHost_n (s : State) (p : List HostAccess) : (s.setHost p).n = s.n := rfl
@[simp] theorem setHost_len (s : State) (p : List HostAccess) : (s.setHost p).len = s.len := rfl
@[simp] theorem setHost_k (s : State) (p : List HostAccess) : (s.setHost p).k = s.k := rfl
@[simp] theorem setHost_status (s : State) (p : List HostAccess) : (s.setHost p).status = s.status := rfl
@[simp] theorem setHost_buf (s : State) (p : List HostAccess) : (s.setHost p).buf = s.buf := rfl
@[simp] theorem setHost_host (s : State) (p : List HostAccess) : (s.setHost p).host = p := rfl
@[simp] theorem setHost_reads (s : State) (p : List HostAccess) : (s.setHost p).reads = s.reads := rfl

@[simp] theorem logRead_cfg (s : State) (r : HostRead) : (s.logRead r).cfg = s.cfg := rfl
@[simp] theorem logRead_n (s : State) (r : HostRead) : (s.logRead r).n = s.n := rfl
@[simp] theorem logRead_len (s : State) (r : HostRead) : (s.logRead r).len = s.len := rfl
@[simp] theorem logRead_k (s : State) (r : HostRead) : (s.logRead r).k = s.k := rfl
@[simp] theorem logRead_status (s : State) (r : HostRead) : (s.logRead r).status = s.status := rfl
@[simp] theorem logRead_buf (s : State) (r : HostRead) : (s.logRead r).buf = s.buf := rfl
@[simp] theorem logRead_host (s : State) (r : HostRead) : (s.logRead r).host = s.host := rfl
@[simp] theorem logRead_reads (s : State) (r : HostRead) : (s.logRead r).reads = r :: s.reads := rfl

@[simp] theorem resetWith_cfg (c : Config) : (State.resetWith c).cfg = c := rfl
@[simp] theorem resetWith_n (c : Config) : (State.resetWith c).n = 0#32 := rfl
@[simp] theorem resetWith_len (c : Config) : (State.resetWith c).len = 0#32 := rfl
@[simp] theorem resetWith_k (c : Config) : (State.resetWith c).k = ⟨0#32, 0#32, 0#32, 0#32⟩ := rfl
@[simp] theorem resetWith_status (c : Config) : (State.resetWith c).status = 0#32 := rfl
@[simp] theorem resetWith_buf (c : Config) : (State.resetWith c).buf = [] := rfl
@[simp] theorem resetWith_host (c : Config) : (State.resetWith c).host = [] := rfl
@[simp] theorem resetWith_reads (c : Config) : (State.resetWith c).reads = [] := rfl

/-- Two states with equal fields are equal. -/
theorem State.ext_fields {s t : State} (hcfg : s.cfg = t.cfg) (hn : s.n = t.n) (hlen : s.len = t.len) (hk : s.k = t.k)
    (hstatus : s.status = t.status) (hbuf : s.buf = t.buf) (hhost : s.host = t.host) (hreads : s.reads = t.reads) :
    s = t := by
  cases s; cases t; simp_all

end Sys2Proof.Machine
end

