-- ==== Sys2Proof/Laws/Memory.lean ====
section
/-! SUPPORT. The laws of the buffer memory: a read after a write, the canonical form kept by every operation, equal
memories are equal data, and what a store of a list of bytes does. -/

namespace Sys2Proof.Machine

@[simp] theorem lookup_nil (a : Nat) : Memory.lookup [] a = none := rfl

/-- A read after a write: the byte written at that offset, and what was there everywhere else. -/
@[simp] theorem lookup_write (m : Memory) (a : Nat) (v : Byte) (x : Nat) :
    Memory.lookup (Memory.write m a v) x = if x = a then some v else Memory.lookup m x := by
  induction m with
  | nil => simp [Memory.write, Memory.lookup, eq_comm]
  | cons c m ih =>
    obtain ⟨b, w⟩ := c
    unfold Memory.write
    split
    · simp [Memory.lookup, eq_comm (a := a)]
    · split
      · subst_vars
        simp only [Memory.lookup]
        grind
      · simp only [Memory.lookup, ih]
        grind

theorem mem_write {m : Memory} {a : Nat} {v : Byte} {c : Host.Cell} (h : c ∈ Memory.write m a v) :
    c = (a, v) ∨ c ∈ m := by
  induction m with
  | nil => simpa [Memory.write] using h
  | cons d m ih =>
    obtain ⟨b, w⟩ := d
    unfold Memory.write at h
    split at h
    · simpa using h
    · split at h
      · simp only [List.mem_cons] at h ⊢
        tauto
      · simp only [List.mem_cons] at h ⊢
        rcases h with h | h
        · exact .inr (.inl h)
        · rcases ih h with h | h
          · exact .inl h
          · exact .inr (.inr h)

/-- A write keeps the canonical form. -/
theorem write_wf {m : Memory} (h : Memory.wf m) (a : Nat) (v : Byte) : Memory.wf (Memory.write m a v) := by
  refine ⟨?_, by simp [Memory.unlisted]⟩
  replace h := h.1
  induction m with
  | nil => simp [Memory.write]
  | cons d m ih =>
    obtain ⟨b, w⟩ := d
    rw [List.pairwise_cons] at h
    unfold Memory.write
    split
    · rename_i hab
      refine List.pairwise_cons.2 ⟨fun c hc => ?_, List.pairwise_cons.2 h⟩
      rcases List.mem_cons.1 hc with rfl | hc
      · exact hab
      · exact hab.trans (h.1 c hc)
    · split
      · subst_vars
        exact List.pairwise_cons.2 h
      · refine List.pairwise_cons.2 ⟨fun c hc => ?_, ih h.2⟩
        rcases mem_write hc with rfl | hc
        · simp only; omega
        · exact h.1 c hc

theorem lookup_isSome_mem {m : Memory} {a : Nat} {v : Byte} (h : Memory.lookup m a = some v) : (a, v) ∈ m := by
  induction m with
  | nil => simp at h
  | cons d m ih =>
    obtain ⟨b, w⟩ := d
    unfold Memory.lookup at h
    split at h
    · simp_all
    · exact List.mem_cons_of_mem _ (ih h)

/-- In canonical form an offset is listed at most once, so a listed byte is the byte read. -/
theorem lookup_of_mem {m : Memory} (h : Memory.wf m) {a : Nat} {v : Byte} (hc : (a, v) ∈ m) :
    Memory.lookup m a = some v := by
  replace h := h.1
  induction m with
  | nil => simp at hc
  | cons d m ih =>
    obtain ⟨b, w⟩ := d
    rw [List.pairwise_cons] at h
    unfold Memory.lookup
    rcases List.mem_cons.1 hc with hc | hc
    · simp_all
    · have := h.1 _ hc
      simp only at this
      rw [if_neg (by omega)]
      exact ih hc h.2

/-- Memories in canonical form that hold the same bytes are the same list. -/
theorem wf_ext {m m' : Memory} (h : Memory.wf m) (h' : Memory.wf m')
    (heq : ∀ a, Memory.lookup m a = Memory.lookup m' a) : m = m' := by
  have hmem : ∀ c, c ∈ m ↔ c ∈ m' := fun ⟨a, v⟩ =>
    ⟨fun hc => lookup_isSome_mem (heq a ▸ lookup_of_mem h hc), fun hc => lookup_isSome_mem (heq a ▸ lookup_of_mem h' hc)⟩
  have nodup : ∀ {l : Memory}, l.Pairwise (fun c d => c.1 < d.1) → l.Nodup := fun hl =>
    hl.imp fun hlt heq => by subst heq; exact lt_irrefl _ hlt
  exact ((List.perm_ext_iff_of_nodup (nodup h.1) (nodup h'.1)).2 hmem).eq_of_pairwise
    (fun c d _ _ hcd hdc => absurd (hcd.trans hdc) (lt_irrefl _)) h.1 h'.1

/-- What a store of a list of bytes does to each offset. -/
theorem lookup_store (m : Memory) (a : Nat) (vs : List Byte) (x : Nat) :
    Memory.lookup (Memory.store m a vs) x =
      if a ≤ x ∧ x < a + vs.length then vs[x - a]? else Memory.lookup m x := by
  induction vs generalizing m a with
  | nil =>
    rw [Memory.store, if_neg (by simp)]
  | cons v vs ih =>
    rw [Memory.store, ih, lookup_write]
    rcases Nat.lt_trichotomy x a with h | rfl | h
    · rw [if_neg (by omega), if_neg (by omega), if_neg (by omega)]
    · rw [if_neg (by omega), if_pos rfl, if_pos (by simp)]
      simp
    · obtain ⟨d, rfl⟩ : ∃ d, x = a + 1 + d := ⟨x - (a + 1), by omega⟩
      rw [show a + 1 + d - (a + 1) = d by omega, show a + 1 + d - a = d + 1 by omega, if_neg (by omega : ¬ a + 1 + d = a)]
      simp only [List.length_cons, List.getElem?_cons_succ]
      grind

theorem store_wf {m : Memory} (h : Memory.wf m) (a : Nat) (vs : List Byte) : Memory.wf (Memory.store m a vs) := by
  induction vs generalizing m a with
  | nil => exact h
  | cons v vs ih => exact ih (write_wf h a v) (a + 1)

theorem write_range {m : Memory} {cap : Nat} (h : ∀ c ∈ m, c.1 < cap) {a : Nat} (ha : a < cap) (v : Byte) :
    ∀ c ∈ Memory.write m a v, c.1 < cap := by
  intro c hc
  rcases mem_write hc with rfl | hc
  · exact ha
  · exact h c hc

theorem store_range {m : Memory} {cap : Nat} (h : ∀ c ∈ m, c.1 < cap) (a : Nat) (vs : List Byte)
    (ha : a + vs.length ≤ cap) : ∀ c ∈ Memory.store m a vs, c.1 < cap := by
  induction vs generalizing m a with
  | nil => exact h
  | cons v vs ih =>
    simp only [List.length_cons] at ha
    exact ih (write_range h (by omega) v) (a + 1) (by omega)

/-- The memory right after reset is in canonical form. -/
theorem resetWith_wf (c : Config) : Memory.wf (State.resetWith c).buf := ⟨List.Pairwise.nil, by simp⟩

/-- `BUF[x]` depends on the stored bytes and the power-on contents only. -/
theorem byteAt_congr {s t : State} (hc : t.cfg = s.cfg) (hb : t.buf = s.buf) (x : Nat) : byteAt t x = byteAt s x := by
  rw [byteAt, byteAt, hc, hb]

@[simp] theorem byteAt_setN (s : State) (v : Word) (x : Nat) : byteAt (s.setN v) x = byteAt s x := rfl
@[simp] theorem byteAt_setLen (s : State) (v : Word) (x : Nat) : byteAt (s.setLen v) x = byteAt s x := rfl
@[simp] theorem byteAt_setKey (s : State) (k : Key) (x : Nat) : byteAt (s.setKey k) x = byteAt s x := rfl
@[simp] theorem byteAt_setStatus (s : State) (w : Word) (x : Nat) : byteAt (s.setStatus w) x = byteAt s x := rfl
@[simp] theorem byteAt_setHost (s : State) (p : List HostAccess) (x : Nat) : byteAt (s.setHost p) x = byteAt s x := rfl
@[simp] theorem byteAt_logRead (s : State) (r : HostRead) (x : Nat) : byteAt (s.logRead r) x = byteAt s x := rfl

/-- `BUF[x]` after the write of one byte. -/
@[simp] theorem byteAt_writeByte (s : State) (a : Nat) (v : Byte) (x : Nat) :
    byteAt (s.writeByte a v) x = if x = a then v else byteAt s x := by
  simp only [byteAt, State.writeByte, setBuf_buf, setBuf_cfg, lookup_write]
  split <;> rfl

/-- `BUF[x]` after a store of bytes computed from a function of the index. -/
theorem byteAt_storeBytes_range (s : State) (l : Nat) (f : Nat → Byte) (x : Nat) :
    byteAt (s.storeBytes 0 ((List.range l).map f)) x = if x < l then f x else byteAt s x := by
  simp only [byteAt, State.storeBytes, setBuf_buf, setBuf_cfg, lookup_store]
  by_cases h : x < l <;> simp [h]

end Sys2Proof.Machine
end

