-- ==== Sys2Proof/Laws/Commands.lean ====
section
/-! SUPPORT. One spec lemma per shared operation: the fields of `STATUS`, the end of a command, the writes of the two
transforms, what a command can answer, and the address decoder. Callers cite these and do not unfold the operations. -/

namespace Sys2Proof.Machine

/-! The fields of `STATUS` after a command. -/

@[simp] theorem statusBusy_completed (x : ResultCode) (h : Bool) : statusBusy (completedStatus x h) = false := by
  cases x <;> cases h <;> rfl

@[simp] theorem statusDone_completed (x : ResultCode) (h : Bool) : statusDone (completedStatus x h) = true := by
  cases x <;> cases h <;> rfl

@[simp] theorem statusHdr_completed (x : ResultCode) (h : Bool) : statusHdr (completedStatus x h) = h := by
  cases x <;> cases h <;> rfl

@[simp] theorem statusCode_completed (x : ResultCode) (h : Bool) :
    statusCode (completedStatus x h) = x.number := by
  cases x <;> cases h <;> rfl

/-- On an idle block a read of `STATUS` gives the register, its reserved bits 0. -/
theorem statusRead_idle {s : State} (h : statusBusy s.status = false) : statusRead s = s.status &&& 0x00000F07#32 := by
  simp [statusRead, h]

/-- A legal value of `STATUS` has no reserved bit set, so it is read as it stands. -/
theorem mask_of_legal {w : Word} (h : w ∈ legalStatus) : w &&& 0x00000F07#32 = w := by
  simp only [legalStatus, List.mem_cons, List.not_mem_nil, or_false] at h
  rcases h with rfl | rfl | rfl | rfl | rfl | rfl | rfl | rfl | rfl | rfl <;> rfl

/-- No legal value of `STATUS` shows `BUSY`. -/
theorem busy_of_legal {w : Word} (h : w ∈ legalStatus) : statusBusy w = false := by
  simp only [legalStatus, List.mem_cons, List.not_mem_nil, or_false] at h
  rcases h with rfl | rfl | rfl | rfl | rfl | rfl | rfl | rfl | rfl | rfl <;> rfl

/-! The end of a command. -/

@[simp] theorem completeWith_cfg (x : ResultCode) (h : Bool) (s : State) : (completeWith x h s).cfg = s.cfg := rfl
@[simp] theorem completeWith_n (x : ResultCode) (h : Bool) (s : State) : (completeWith x h s).n = s.n := rfl
@[simp] theorem completeWith_len (x : ResultCode) (h : Bool) (s : State) : (completeWith x h s).len = s.len := rfl
@[simp] theorem completeWith_k (x : ResultCode) (h : Bool) (s : State) : (completeWith x h s).k = s.k := rfl
@[simp] theorem completeWith_status (x : ResultCode) (h : Bool) (s : State) : (completeWith x h s).status = completedStatus x h := rfl
@[simp] theorem completeWith_buf (x : ResultCode) (h : Bool) (s : State) : (completeWith x h s).buf = s.buf := rfl
@[simp] theorem completeWith_host (x : ResultCode) (h : Bool) (s : State) : (completeWith x h s).host = s.host := rfl
@[simp] theorem completeWith_reads (x : ResultCode) (h : Bool) (s : State) : (completeWith x h s).reads = s.reads := rfl
@[simp] theorem byteAt_completeWith (x : ResultCode) (h : Bool) (s : State) (a : Nat) : byteAt (completeWith x h s) a = byteAt s a := rfl

@[simp] theorem raiseOutcome_cfg (x : ResultCode) (h : Bool) (s : State) : (raiseOutcome x h s).cfg = s.cfg := rfl
@[simp] theorem raiseOutcome_n (x : ResultCode) (h : Bool) (s : State) : (raiseOutcome x h s).n = s.n := rfl
@[simp] theorem raiseOutcome_len (x : ResultCode) (h : Bool) (s : State) : (raiseOutcome x h s).len = s.len := rfl
@[simp] theorem raiseOutcome_k (x : ResultCode) (h : Bool) (s : State) : (raiseOutcome x h s).k = s.k := rfl
@[simp] theorem raiseOutcome_status (x : ResultCode) (h : Bool) (s : State) : (raiseOutcome x h s).status = completedStatus x h := rfl
@[simp] theorem raiseOutcome_buf (x : ResultCode) (h : Bool) (s : State) : (raiseOutcome x h s).buf = s.buf := rfl
@[simp] theorem raiseOutcome_host (x : ResultCode) (h : Bool) (s : State) : (raiseOutcome x h s).host = s.host := rfl
@[simp] theorem raiseOutcome_reads (x : ResultCode) (h : Bool) (s : State) : (raiseOutcome x h s).reads = s.reads := rfl
@[simp] theorem byteAt_raiseOutcome (x : ResultCode) (h : Bool) (s : State) (a : Nat) : byteAt (raiseOutcome x h s) a = byteAt s a := rfl

@[simp] theorem finishOk_cfg (h : Bool) (s : State) : (finishOk h s).cfg = s.cfg := rfl
@[simp] theorem finishOk_n (h : Bool) (s : State) : (finishOk h s).n = s.n := rfl
@[simp] theorem finishOk_len (h : Bool) (s : State) : (finishOk h s).len = s.len := rfl
@[simp] theorem finishOk_k (h : Bool) (s : State) : (finishOk h s).k = s.k := rfl
@[simp] theorem finishOk_status (h : Bool) (s : State) : (finishOk h s).status = completedStatus .ok h := rfl
@[simp] theorem finishOk_buf (h : Bool) (s : State) : (finishOk h s).buf = s.buf := rfl
@[simp] theorem finishOk_host (h : Bool) (s : State) : (finishOk h s).host = s.host := rfl
@[simp] theorem finishOk_reads (h : Bool) (s : State) : (finishOk h s).reads = s.reads := rfl
@[simp] theorem byteAt_finishOk (h : Bool) (s : State) (a : Nat) : byteAt (finishOk h s) a = byteAt s a := rfl

@[simp] theorem writeByte_cfg (s : State) (a : Nat) (v : Byte) : (s.writeByte a v).cfg = s.cfg := rfl
@[simp] theorem writeByte_n (s : State) (a : Nat) (v : Byte) : (s.writeByte a v).n = s.n := rfl
@[simp] theorem writeByte_len (s : State) (a : Nat) (v : Byte) : (s.writeByte a v).len = s.len := rfl
@[simp] theorem writeByte_k (s : State) (a : Nat) (v : Byte) : (s.writeByte a v).k = s.k := rfl
@[simp] theorem writeByte_status (s : State) (a : Nat) (v : Byte) : (s.writeByte a v).status = s.status := rfl
@[simp] theorem writeByte_host (s : State) (a : Nat) (v : Byte) : (s.writeByte a v).host = s.host := rfl
@[simp] theorem writeByte_reads (s : State) (a : Nat) (v : Byte) : (s.writeByte a v).reads = s.reads := rfl
@[simp] theorem writeByte_buf (s : State) (a : Nat) (v : Byte) : (s.writeByte a v).buf = Memory.write s.buf a v := rfl

/-! The writes of the two transforms. -/

@[simp] theorem decryptWrites_cfg (s : State) : (decryptWrites s).cfg = s.cfg := rfl
@[simp] theorem decryptWrites_n (s : State) : (decryptWrites s).n = s.n := rfl
@[simp] theorem decryptWrites_len (s : State) : (decryptWrites s).len = s.len - 8#32 := rfl
@[simp] theorem decryptWrites_k (s : State) : (decryptWrites s).k = deriveKey (s.len - 8#32) := rfl
@[simp] theorem decryptWrites_status (s : State) : (decryptWrites s).status = s.status := rfl
@[simp] theorem decryptWrites_host (s : State) : (decryptWrites s).host = s.host := rfl
@[simp] theorem decryptWrites_reads (s : State) : (decryptWrites s).reads = s.reads := rfl

@[simp] theorem encryptWrites_cfg (s : State) : (encryptWrites s).cfg = s.cfg := rfl
@[simp] theorem encryptWrites_n (s : State) : (encryptWrites s).n = s.n := rfl
@[simp] theorem encryptWrites_len (s : State) : (encryptWrites s).len = s.len + 8#32 := rfl
@[simp] theorem encryptWrites_k (s : State) : (encryptWrites s).k = deriveKey s.len := rfl
@[simp] theorem encryptWrites_status (s : State) : (encryptWrites s).status = s.status := rfl
@[simp] theorem encryptWrites_host (s : State) : (encryptWrites s).host = s.host := rfl
@[simp] theorem encryptWrites_reads (s : State) : (encryptWrites s).reads = s.reads := rfl

/-- `BUF` after the decrypt transform: the plaintext below the content length, every other byte as before. -/
theorem byteAt_decryptWrites (s : State) (a : Nat) :
    byteAt (decryptWrites s) a =
      if a < (s.len - 8#32).toNat then decryptedByte s (s.len - 8#32).toNat (deriveKey (s.len - 8#32)) a
      else byteAt s a := by
  simp only [decryptWrites, byteAt_setKey, byteAt_setLen, byteAt_storeBytes_range]

/-- `BUF` after the encrypt transform: the ciphertext below the new length, every other byte as before. -/
theorem byteAt_encryptWrites (s : State) (a : Nat) :
    byteAt (encryptWrites s) a =
      if a < s.len.toNat + 8 then encryptedByte s s.len.toNat (deriveKey s.len) a else byteAt s a := by
  simp only [encryptWrites, byteAt_setKey, byteAt_setLen, byteAt_storeBytes_range]

/-- What a command can answer: an outcome other than `OK` with nothing but `STATUS` written, or `OK` with the writes of its
own rule, each with the flag of rule R116 and under the conditions that lead there. -/
theorem exec_cases (i : Instr) (s : State) :
    (∃ x h, exec i s = .next (raiseOutcome x h s) ∧ completedStatus x h ∈ legalStatus ∧ x ≠ .ok) ∨
    (i = .derive ∧ exec i s = .next (finishOk false (s.setKey (deriveKey s.n)))) ∨
    (i = .detect ∧ exec i s = .next (finishOk (hasHeader s) s)) ∨
    (i = .decrypt ∧ s.len.toNat ≤ s.cfg.bufCap ∧ hasHeader s = true ∧ (s.len.toNat - 8 = 0 ∨ 8 ≤ s.len.toNat - 8) ∧
      exec i s = .next (finishOk true (decryptWrites s))) ∨
    (i = .encrypt ∧ s.len.toNat + 8 ≤ s.cfg.bufCap ∧ hasHeader s = false ∧ (s.len.toNat = 0 ∨ 8 ≤ s.len.toNat) ∧
      exec i s = .next (finishOk false (encryptWrites s))) := by
  cases i with
  | derive => exact .inr (.inl ⟨rfl, rfl⟩)
  | detect =>
    by_cases h : lengthTooLarge s = true
    · exact .inl ⟨.badLength, false, by simp [exec, execDetect, h], by decide, by decide⟩
    · exact .inr (.inr (.inl ⟨rfl, by simp [exec, execDetect, h]⟩))
  | decrypt =>
    by_cases h : lengthTooLarge s = true
    · exact .inl ⟨.badLength, false, by simp [exec, execDecrypt, h], by decide, by decide⟩
    by_cases hh : hasHeader s = false
    · exact .inl ⟨.notEncrypted, false, by simp [exec, execDecrypt, h, hh], by decide, by decide⟩
    by_cases hl : 1 ≤ s.len.toNat - 8 ∧ s.len.toNat - 8 ≤ 7
    · exact .inl ⟨.malformedCiphertext, true, by simp [exec, execDecrypt, h, hh, hl], by decide, by decide⟩
    · refine .inr (.inr (.inr (.inl ⟨rfl, ?_, by simpa using hh, by omega, by rw [exec, execDecrypt, if_neg h, if_neg hh, if_neg hl]⟩)))
      simpa [lengthTooLarge] using h
  | encrypt =>
    by_cases h : lengthTooLarge s = true
    · exact .inl ⟨.badLength, false, by simp [exec, execEncrypt, h], by decide, by decide⟩
    by_cases hh : hasHeader s = true
    · exact .inl ⟨.alreadyEncrypted, true, by simp [exec, execEncrypt, h, hh], by decide, by decide⟩
    by_cases hl : 1 ≤ s.len.toNat ∧ s.len.toNat ≤ 7
    · exact .inl ⟨.shortPayload, false, by simp [exec, execEncrypt, h, hh, hl], by decide, by decide⟩
    by_cases hc : s.cfg.bufCap < s.len.toNat + 8
    · exact .inl ⟨.capacity, false, by simp [exec, execEncrypt, h, hh, hl, hc], by decide, by decide⟩
    · exact .inr (.inr (.inr (.inr ⟨rfl, by omega, by simpa using hh, by omega,
        by rw [exec, execEncrypt, if_neg h, if_neg hh, if_neg hl, if_neg hc]⟩)))

/-- A header needs 8 bytes. -/
theorem len_of_hasHeader {s : State} (h : hasHeader s = true) : 8 ≤ s.len.toNat := by
  simp only [hasHeader, Bool.and_eq_true, decide_eq_true_eq] at h
  exact h.1

/-! The address decoder. -/

/-- A register is found at its own offset and nowhere else. -/
theorem registerAt_eq_some {off : Nat} {r : Register} : registerAt off = some r ↔ off = r.offset := by
  constructor
  · intro h
    exact (beq_iff_eq.1 (List.find?_some (p := fun r : Register => r.offset == off) h)).symm
  · rintro rfl
    cases r <;> rfl

@[simp] theorem registerAt_offset (r : Register) : registerAt r.offset = some r := registerAt_eq_some.2 rfl

/-- The offsets that hold no register are those that are no multiple of 4 or lie above 0x1C. -/
theorem registerAt_eq_none {off : Nat} : registerAt off = none ↔ ¬ (off % 4 = 0 ∧ off ≤ 0x1C) := by
  constructor
  · intro h hc
    have : off = 0 ∨ off = 4 ∨ off = 8 ∨ off = 12 ∨ off = 16 ∨ off = 20 ∨ off = 24 ∨ off = 28 := by omega
    rcases this with rfl | rfl | rfl | rfl | rfl | rfl | rfl | rfl <;> exact absurd h (by decide)
  · intro h
    rcases hr : registerAt off with _ | r
    · rfl
    · rw [registerAt_eq_some] at hr
      subst hr
      cases r <;> exact absurd (by decide) h

end Sys2Proof.Machine
end

