-- ==== Sys2Proof/Laws/PerInstr.lean ====
section
/-! SUPPORT. Facts about each command as syntax, one lemma per constructor: its word is well formed (rule R53) and decodes to
it (rules R55, R59). -/

namespace Sys2Proof.Laws.CommandWord

/-- The command is well formed, its word passes the check of rule R53, and the decoder reads the command from it. -/
def Statement (i : Instr) : Prop :=
  i.wellFormed = true ∧ commandWordWellFormed (encode i) = true ∧ decode (encode i) = .ok i

theorem derive : Statement .derive := ⟨rfl, rfl, rfl⟩
theorem decrypt : Statement .decrypt := ⟨rfl, rfl, rfl⟩
theorem detect : Statement .detect := ⟨rfl, rfl, rfl⟩
theorem encrypt : Statement .encrypt := ⟨rfl, rfl, rfl⟩

end Sys2Proof.Laws.CommandWord
end

