-- ==== Sys2Proof/Laws/Step.lean ====
section
/-! SUPPORT. What one step can do, said once: the inversion lemma of `step`. -/

namespace Sys2Proof.Machine

/-- The block waits when the host issues nothing. -/
theorem step_idle {s : State} (h : s.host = []) : step s = .next s := by
  simp [step, nextEvent, h]

/-- With an access to come, the step is that access. -/
theorem step_access {s : State} {a : HostAccess} {rest : List HostAccess} (h : s.host = a :: rest) :
    step s = hostAccess a (s.setHost rest) := by
  simp [step, nextEvent, h]

/-! Each access of an idle block, by its kind, and an access of a busy one. -/

theorem hostAccess_regRead {s : State} (hb : statusBusy s.status = false) {r : Register} :
    hostAccess (.regRead r.offset) s = .next (s.logRead (.register r.offset (readRegister r s))) := by
  simp [hostAccess, hb]

theorem hostAccess_regWrite {s : State} (hb : statusBusy s.status = false) {r : Register} {v : Word} :
    hostAccess (.regWrite r.offset v) s = writeRegister r v s := by
  simp [hostAccess, hb]

theorem hostAccess_badOffset {s : State} (hb : statusBusy s.status = false) {off : Nat}
    (ho : ¬ (off % 4 = 0 ∧ off ≤ 0x1C)) (v : Word) :
    hostAccess (.regRead off) s = .refused (.registerOffset off) ∧
      hostAccess (.regWrite off v) s = .refused (.registerOffset off) := by
  simp [hostAccess, hb, registerAt_eq_none.2 ho]

theorem hostAccess_bufRead {s : State} (hb : statusBusy s.status = false) (a : Nat) :
    hostAccess (.bufRead a) s =
      if a < s.cfg.bufCap then .next (s.logRead (.byte a (byteAt s a))) else .refused (.bufferOffset a) := by
  simp [hostAccess, hb]

theorem hostAccess_bufWrite {s : State} (hb : statusBusy s.status = false) (a : Nat) (v : Byte) :
    hostAccess (.bufWrite a v) s =
      if a < s.cfg.bufCap then .next (s.writeByte a v) else .refused (.bufferOffset a) := by
  simp [hostAccess, hb]

theorem hostAccess_otherWidth {s : State} (hb : statusBusy s.status = false) (sp : Space) (off width : Nat) :
    hostAccess (.otherWidth sp off width) s = .refused (.accessWidth width) := by
  simp [hostAccess, hb]

theorem hostAccess_busy {s : State} (hb : statusBusy s.status = true) {a : HostAccess} (ha : a ≠ .regRead 0x04) :
    hostAccess a s = .refused .accessWhileBusy := by
  rw [hostAccess.eq_def, if_pos ⟨hb, ha⟩]

/-- A write to `CMD` of an idle block issues the word. -/
theorem step_cmd {s : State} {w : Word} {rest : List HostAccess} (h : s.host = .regWrite 0x00 w :: rest)
    (hb : statusBusy s.status = false) : step s = issue w (s.setHost rest) := by
  rw [step_access h]
  exact hostAccess_regWrite (r := .cmd) (s := s.setHost rest) hb

/-- What an access can answer as a next state. -/
theorem hostAccess_cases {a : HostAccess} {s t : State} (h : hostAccess a s = .next t) :
    (∃ r, t = s.logRead r) ∨ t = s ∨ (∃ v, t = s.setLen v) ∨ (∃ v, t = s.setN v) ∨
    (∃ x v, x < s.cfg.bufCap ∧ a = .bufWrite x v ∧ t = s.writeByte x v) ∨
    (∃ w, a = .regWrite 0 w ∧ statusBusy s.status = false ∧ issue w s = .next t) := by
  unfold hostAccess at h
  split at h
  · exact absurd h (by simp)
  rename_i hb
  match a with
  | .regRead off =>
    simp only at h
    split at h
    · exact .inl ⟨_, (Host.Outcome.next.inj h).symm⟩
    · exact absurd h (by simp)
  | .regWrite off v =>
    simp only at h
    split at h
    · rename_i r hr
      rw [registerAt_eq_some] at hr
      subst hr
      cases r with
      | cmd => exact .inr (.inr (.inr (.inr (.inr ⟨v, rfl, by simpa using hb, h⟩))))
      | len => exact .inr (.inr (.inl ⟨v, (Host.Outcome.next.inj h).symm⟩))
      | n => exact .inr (.inr (.inr (.inl ⟨v, (Host.Outcome.next.inj h).symm⟩)))
      | status => exact .inr (.inl (Host.Outcome.next.inj h).symm)
      | k0 => exact .inr (.inl (Host.Outcome.next.inj h).symm)
      | k1 => exact .inr (.inl (Host.Outcome.next.inj h).symm)
      | k2 => exact .inr (.inl (Host.Outcome.next.inj h).symm)
      | k3 => exact .inr (.inl (Host.Outcome.next.inj h).symm)
    · exact absurd h (by simp)
  | .bufRead x =>
    simp only at h
    split at h
    · exact .inl ⟨_, (Host.Outcome.next.inj h).symm⟩
    · exact absurd h (by simp)
  | .bufWrite x v =>
    simp only at h
    split at h
    · rename_i hx
      exact .inr (.inr (.inr (.inr (.inl ⟨x, v, hx, rfl, (Host.Outcome.next.inj h).symm⟩))))
    · exact absurd h (by simp)
  | .otherWidth sp off width => exact absurd h (by simp)

/-- What a step can answer as a next state: the block waits, or the host's next access happens. -/
theorem step_cases {s t : State} (h : step s = .next t) :
    (s.host = [] ∧ t = s) ∨ ∃ a rest, s.host = a :: rest ∧ hostAccess a (s.setHost rest) = .next t := by
  rcases hh : s.host with _ | ⟨a, rest⟩
  · rw [step_idle hh] at h
    exact .inl ⟨rfl, (Host.Outcome.next.inj h).symm⟩
  · rw [step_access hh] at h
    exact .inr ⟨a, rest, rfl, h⟩

/-! A run, step by step. -/

@[simp] theorem runSteps_zero (s : State) : runSteps 0 s = .next s := rfl

theorem runSteps_succ {s t : State} (h : step s = .next t) (k : Nat) : runSteps (k + 1) s = runSteps k t := by
  simp [runSteps, h]

/-- What a run that answers a next state began with. -/
theorem runSteps_succ_cases {s u : State} {k : Nat} (h : runSteps (k + 1) s = .next u) :
    ∃ t, step s = .next t ∧ runSteps k t = .next u := by
  unfold runSteps at h
  split at h
  · exact ⟨_, ‹_›, h⟩
  · cases h
  · cases h

/-- A command issued by a write to `CMD`: the decoded one, or the illegal-command outcome. -/
theorem issue_cases (w : Word) (s : State) :
    (∃ i, decode w = .ok i ∧ issue w s = exec i s) ∨
    ((∃ e, decode w = .error e) ∧ issue w s = .next (raiseOutcome .illegalCommand false s)) := by
  unfold issue
  cases h : decode w with
  | ok i => exact .inl ⟨i, rfl, rfl⟩
  | error e => exact .inr ⟨⟨e, rfl⟩, rfl⟩

end Sys2Proof.Machine
end

