-- ==== Sys2Proof/Tests/Slice0.lean ====
section
/-! SUPPORT. The model's own tests. Expected results are the spec's: each test names the vector (V<n>) of
spec/95_test_vectors.md or the rule it comes from. The last part shows, for every statement that has hypotheses, a concrete
state and operands that meet all of them together, with a witness at the boundaries of each clause. -/

namespace Sys2Proof.Tests

open Sys2Proof.Machine

/-! The checks of WellFormed refuse an ill-formed term each. -/

theorem smoke_word_upperBits : commandWordWellFormed 0x00000104#32 = false := by decide
theorem smoke_word_op0 : commandWordWellFormed 0x00000000#32 = false := by decide
theorem smoke_word_op5 : commandWordWellFormed 0x00000005#32 = false := by decide
theorem smoke_access_unaligned : (HostAccess.regRead 0x06).wellFormed 64 = false := by decide
theorem smoke_access_offset : (HostAccess.regWrite 0x20 0#32).wellFormed 64 = false := by decide
theorem smoke_access_bufRead : (HostAccess.bufRead 64).wellFormed 64 = false := by decide
theorem smoke_access_bufWrite : (HostAccess.bufWrite 64 0#8).wellFormed 64 = false := by decide
theorem smoke_access_width : (HostAccess.otherWidth .buffer 0 16).wellFormed 64 = false := by decide
theorem smoke_config_small : ¬ (⟨7, 0⟩ : Config).wf := by decide
theorem smoke_config_large : ¬ (⟨2 ^ 32, 0⟩ : Config).wf := by decide

/-! Decoding: the words written out bit by bit from rule R52 (24 zeros, then `op`) and rule R55. -/

theorem test_decode_derive : decode 0b00000000000000000000000000000001#32 = .ok .derive := by decide
theorem test_decode_decrypt : decode 0b00000000000000000000000000000010#32 = .ok .decrypt := by decide
theorem test_decode_detect : decode 0b00000000000000000000000000000011#32 = .ok .detect := by decide
theorem test_decode_encrypt : decode 0b00000000000000000000000000000100#32 = .ok .encrypt := by decide
/-- V16: bit 8 set, a valid `op`. -/
theorem test_decode_bit8 : decode 0b00000000000000000000000100000001#32 = .error .upperBitsSet := by decide
/-- V16: no operation code. -/
theorem test_decode_ff : decode 0b00000000000000000000000011111111#32 = .error .unknownOp := by decide
theorem test_table_encrypt : decodeTableWord 32 4 = some .encrypt := by decide
theorem test_table_illegal : decodeTableWord 32 0x80000004 = none := by decide

/-! One command or access on a small state. -/

/-- An idle block of capacity `cap` whose buffer holds `bs` from offset 0, with `LEN` = `len`. -/
def withBytes (cap len : Nat) (bs : List Byte) : State :=
  { State.resetWith ⟨cap, 0⟩ with len := BitVec.ofNat 32 len, buf := bs.mapIdx fun i b => (i, b) }

/-- The state of a next outcome. -/
def nextOf : Host.Outcome State Fault Refusal → State
  | .next s => s
  | .fault _ => State.reset
  | .refused _ => State.reset

/-- The state with `p` as the host's accesses to come. -/
def withHost (p : List HostAccess) : State := { State.reset with host := p }

/-- Eight bytes that are no header. -/
def plain8 : List Byte := [0x41#8, 0x42#8, 0x43#8, 0x44#8, 0x45#8, 0x46#8, 0x47#8, 0x48#8]

/-- V6 and R79, `n` = 1. -/
theorem test_derive_one :
    (nextOf (exec .derive { State.reset with n := 1#32 })).k =
      ⟨0x00042021#32, 0x04080601#32, 0x9DCCA8C5#32, 0x1255994F#32⟩ := by decide
/-- V6 and V17 line 1: the right shift is logical. -/
theorem test_derive_logicalShift :
    (nextOf (exec .derive { State.reset with n := 0x80000000#32 })).k =
      ⟨0x80084000#32, 0x89088484#32, 0xAA914148#32, 0xD5B80294#32⟩ := by decide

/-- V9: the exact header. -/
theorem test_detect_header : (nextOf (exec .detect (withBytes 64 8 header))).status = 0x00000006#32 := by decide
/-- V9: 7 bytes, although the eighth stands above `LEN`. -/
theorem test_detect_short : (nextOf (exec .detect (withBytes 64 7 header))).status = 0x00000002#32 := by decide

/-- V10, row `L` = 17, read backwards: keystream byte 0 reused at index 16. -/
theorem test_decrypt_seventeen :
    contents (nextOf (exec .decrypt (withBytes 64 25 (header ++
      [0x58#8, 0xA8#8, 0x41#8, 0x18#8, 0xD8#8, 0x4E#8, 0x1F#8, 0x51#8, 0x41#8, 0x51#8, 0x60#8, 0x05#8, 0x44#8, 0x17#8,
        0x04#8, 0xCB#8, 0x0C#8])))) =
      plain8 ++ [0x49#8, 0x4A#8, 0x4B#8, 0x4C#8, 0x4D#8, 0x4E#8, 0x4F#8, 0x50#8, 0x51#8] := by decide
/-- V10 row `L` = 10 and V17 line 9: the dropped bytes keep their values above the new length. -/
theorem test_decrypt_droppedBytes :
    (List.range 8).map (fun i => byteAt (nextOf (exec .decrypt (withBytes 64 18 (header ++
      [0xE2#8, 0xF0#8, 0x0B#8, 0x03#8, 0x6A#8, 0x44#8, 0x4F#8, 0xFA#8, 0x45#8, 0x60#8])))) (10 + i)) =
      [0x0B#8, 0x03#8, 0x6A#8, 0x44#8, 0x4F#8, 0xFA#8, 0x45#8, 0x60#8] := by decide

/-- V10, row `L` = 10: the source's scenario, with the body bytes of R113. -/
theorem test_encrypt_ten :
    contents (nextOf (exec .encrypt (withBytes 64 10 (plain8 ++ [0x49#8, 0x4A#8])))) =
      header ++ [0xE2#8, 0xF0#8, 0x0B#8, 0x03#8, 0x6A#8, 0x44#8, 0x4F#8, 0xFA#8, 0x45#8, 0x60#8] := by decide
/-- V15: the capacity check comes after the header test, 57 + 8 = 65 > 64. -/
theorem test_encrypt_capacity :
    (nextOf (exec .encrypt (withBytes 64 57 (List.replicate 8 0#8)))).status = 0x00000502#32 := by decide

/-- V7, row `n` = 10: little-endian words, `K[0]` first. -/
theorem test_keystream_ten :
    (List.range 16).map (keystreamByte (deriveKey 10#32)) =
      [0x4A#8, 0x41#8, 0x29#8, 0x00#8, 0x0A#8, 0xBC#8, 0x02#8, 0x28#8, 0xAB#8, 0xBA#8, 0xFB#8, 0x8F#8, 0x7C#8, 0x79#8,
        0x7A#8, 0xED#8] := by decide

/-- V16 and R65: an illegal word from reset. -/
theorem test_step_illegal : (nextOf (step (withHost [.regWrite 0x00 0x104#32]))).status = 0x00000702#32 := by decide
/-- V16: `ENCRYPT` as the first command after reset. -/
theorem test_step_firstCommand :
    (nextOf (step (State.reset.withFetchWord 32 4))).status = 0x00000002#32 ∧
      (nextOf (step (State.reset.withFetchWord 32 4))).len = 8#32 := by decide
/-- R28: a register offset outside the map. -/
theorem test_step_badOffset : step (withHost [.regRead 0x20]) = .refused (.registerOffset 0x20) := rfl
/-- R148: a second command while one runs. -/
theorem test_step_busy :
    step { withHost [.regWrite 0x00 1#32] with status := 1#32 } = .refused .accessWhileBusy := rfl
/-- V21: the pseudo-instruction `derive v` is two accesses. -/
theorem test_notation_derive : deriveOf 1#32 = [.regWrite 0x0C 1#32, .regWrite 0x00 1#32] := by decide
/-- R21: the header constant is the text in ASCII. -/
theorem test_header_ascii : asciiBytes "%BIN_2.0" = header := by decide
/-- V18: `load` of two bytes. -/
theorem test_notation_load :
    load [0x41#8, 0x42#8] = [.bufWrite 0 0x41#8, .bufWrite 1 0x42#8, .regWrite 0x08 2#32] := by decide

/-! Witnesses of the hypotheses of the statements, one theorem per statement, in the order of the statements. -/

/-- A ciphertext of content length 8 (V12). -/
def cipher16 : List Byte :=
  header ++ [0x49#8, 0x43#8, 0x62#8, 0x44#8, 0x4D#8, 0x76#8, 0x45#8, 0x68#8]

theorem witness_DecodeEncodeAgree :
    Instr.encrypt.wellFormed = true ∧ decode 4#32 = .ok .encrypt ∧ decode 256#32 = .error .upperBitsSet ∧
      decode 0#32 = .error .unknownOp ∧ decode 5#32 = .error .unknownOp ∧ decode 255#32 = .error .unknownOp := by decide

theorem witness_IllegalWordsChangeOnlyStatus :
    ∀ x ∈ [0x00000000, 0x00000005, 0x000000FF, 0x00000100, 0x00000104, 0xFFFFFFFF],
      (withHost [.regWrite 0x00 (BitVec.ofNat 32 x)]).host = [.regWrite 0x00 (BitVec.ofNat 32 x)] ∧
      statusBusy (withHost [.regWrite 0x00 (BitVec.ofNat 32 x)]).status = false ∧
      ((BitVec.ofNat 32 x).toNat % 256 = 0 ∨ 5 ≤ (BitVec.ofNat 32 x).toNat % 256 ∨
        (BitVec.ofNat 32 x).toNat / 256 ≠ 0) := by decide

theorem witness_StepRunsTheDecodedCommand :
    ∀ p ∈ [(1#32, Instr.derive), (2#32, Instr.decrypt), (3#32, Instr.detect), (4#32, Instr.encrypt)],
      (withHost [.regWrite 0x00 p.1]).host = [.regWrite 0x00 p.1] ∧
      statusBusy (withHost [.regWrite 0x00 p.1]).status = false ∧ decode p.1 = .ok p.2 ∧ p.2.wellFormed = true := by decide

theorem witness_RegisterReadsGiveTheRegister :
    ∀ off ∈ [0x00, 0x04, 0x08, 0x0C, 0x10, 0x14, 0x18, 0x1C],
      (withHost [.regRead off]).host = [.regRead off] ∧ statusBusy (withHost [.regRead off]).status = false ∧
      off % 4 = 0 ∧ off ≤ 0x1C := by decide

theorem witness_RegisterAccessRules :
    (statusBusy (withHost []).status = false ∧
      (∀ off ∈ [0x04, 0x10, 0x14, 0x18, 0x1C], (withHost [.regWrite off 7#32]).host = [.regWrite off 7#32] ∧
        (off = 0x04 ∨ off = 0x10 ∨ off = 0x14 ∨ off = 0x18 ∨ off = 0x1C)) ∧
      (withHost [.regRead 0x00]).host = [.regRead 0x00] ∧
      (∀ off ∈ [0x01, 0x1B, 0x1D, 0x20], ¬ (off % 4 = 0 ∧ off ≤ 0x1C) ∧
        ((withHost [.regRead off]).host = [.regRead off] ∨ (withHost [.regRead off]).host = [.regWrite off 0#32])) ∧
      (withHost [.otherWidth .register 0x08 16]).host = [.otherWidth .register 0x08 16]) ∧
    (statusBusy ({ withHost [.regWrite 0x08 0#32] with status := 1#32 } : State).status = true ∧
      (withHost [.regWrite 0x08 0#32]).host = [.regWrite 0x08 0#32] ∧
      HostAccess.regWrite 0x08 0#32 ≠ .regRead 0x04) := by decide

theorem witness_LenAndNStoreAnyValue :
    statusBusy (withHost [.regWrite 0x08 0xFFFFFFFF#32]).status = false ∧
      (withHost [.regWrite 0x08 0xFFFFFFFF#32]).host = [.regWrite 0x08 0xFFFFFFFF#32] ∧
      (withHost [.regWrite 0x0C 0xFFFFFFFF#32]).host = [.regWrite 0x0C 0xFFFFFFFF#32] := by decide

theorem witness_BufferAccesses :
    ∀ a ∈ [0, 63, 64], statusBusy (withHost [.bufWrite a 1#8]).status = false ∧
      (withHost [.bufWrite a 1#8]).host = [.bufWrite a 1#8] ∧ (withHost [.bufRead a]).host = [.bufRead a] ∧
      (a < State.reset.cfg.bufCap ↔ a ≠ 64) ∧ (State.reset.cfg.bufCap ≤ a ↔ a = 64) := by decide

theorem witness_BusyBlockAnswersOnlyStatusReads :
    ∀ a ∈ [HostAccess.regRead 0x04, .regWrite 0x04 0#32, .regRead 0x00],
      ({ withHost [a] with status := 1#32 } : State).host = [a] ∧
      statusBusy ({ withHost [a] with status := 1#32 } : State).status = true ∧
      (a = .regRead 0x04 ∨ a ≠ .regRead 0x04) := by decide

theorem witness_StepStopsExactlyOnNonConformingAccess :
    (withHost [.bufRead 63]).host = [.bufRead 63] ∧ Conforming (withHost [.bufRead 63]) (.bufRead 63) ∧
      (withHost [.bufRead 64]).host = [.bufRead 64] ∧ ¬ Conforming (withHost [.bufRead 64]) (.bufRead 64) := by
  unfold Conforming
  decide

theorem witness_OnlyCmdWritesStartCommands :
    (∃ t, step (withHost [.regWrite 0x08 1#32]) = .next t) ∧
      ∀ (w : Word) (rest : List HostAccess), (withHost [.regWrite 0x08 1#32]).host ≠ .regWrite 0x00 w :: rest :=
  ⟨⟨_, rfl⟩, fun _ _ h => by simp [withHost] at h⟩

theorem witness_AccessesHaveNoSideEffect :
    (∃ t, step (withHost [.regRead 0x1C]) = .next t ∧ (withHost [.regRead 0x1C]).host = [.regRead 0x1C]) ∧
    (∃ t, step (withHost [.bufRead 63]) = .next t ∧ (withHost [.bufRead 63]).host = [.bufRead 63]) ∧
    (∃ t, step { withBytes 64 1 [7#8] with host := [.bufWrite 0 7#8] } = .next t ∧
      ({ withBytes 64 1 [7#8] with host := [.bufWrite 0 7#8] } : State).host =
        [.bufWrite 0 (byteAt { withBytes 64 1 [7#8] with host := [.bufWrite 0 7#8] } 0)]) ∧
    (∃ t, step (withHost [.regWrite 0x08 0#32]) = .next t ∧
      (withHost [.regWrite 0x08 0#32]).host = [.regWrite 0x08 (withHost [.regWrite 0x08 0#32]).len]) ∧
    (∃ t, step (withHost [.regWrite 0x0C 0#32]) = .next t ∧
      (withHost [.regWrite 0x0C 0#32]).host = [.regWrite 0x0C (withHost [.regWrite 0x0C 0#32]).n]) :=
  ⟨⟨_, rfl, rfl⟩, ⟨_, rfl, rfl⟩, ⟨_, rfl, rfl⟩, ⟨_, rfl, rfl⟩, ⟨_, rfl, rfl⟩⟩

theorem witness_ResetMeetsInvariant : (⟨8, 0⟩ : Config).wf ∧ (⟨2 ^ 32 - 1, 0⟩ : Config).wf := by decide

/-- A state that no run has to reach: two bytes written at the edges of the memory, a length above the capacity, and a key of
a number other than the length. -/
def edgeState : State where
  cfg := ⟨8, 3⟩
  n := 0#32
  len := 0xFFFFFFFF#32
  k := deriveKey 5#32
  status := 0x306#32
  buf := [(0, 1#8), (7, 2#8)]
  host := [.regWrite 0x00 4#32]
  reads := []

theorem witness_StepKeepsInvariant : edgeState.Inv ∧ ∃ t, step edgeState = .next t :=
  ⟨⟨by decide, by decide, by decide, by decide, 5#32, rfl⟩, _, rfl⟩

/-- For `CommandsRewriteTheWholeStatus`, `ErrorsChangeOnlyStatus` and `OutcomesInPriorityOrder`. -/
theorem witness_issueCompletes :
    (∃ t, issue 4#32 (withBytes 64 3 plain8) = .next t ∧ statusCode t.status ≠ 0) ∧
      (∃ t, issue 0#32 State.reset = .next t ∧ statusCode t.status ≠ 0) ∧
      (∃ t, issue 2#32 (withBytes 64 16 cipher16) = .next t) :=
  ⟨⟨nextOf (issue 4#32 (withBytes 64 3 plain8)), rfl, by decide⟩, ⟨nextOf (issue 0#32 State.reset), rfl, by decide⟩,
    ⟨nextOf (issue 2#32 (withBytes 64 16 cipher16)), rfl⟩⟩

theorem witness_HeaderFlagDescribesTheBufferBefore :
    (∃ t, exec .decrypt (withBytes 64 16 cipher16) = .next t) ∧
      (∃ t, (∀ i, 5#32 ≠ encode i) ∧ issue 5#32 State.reset = .next t) ∧
      ∃ t, step (withHost [.regWrite 0x08 1#32]) = .next t ∧
        ∀ (w : Word) (rest : List HostAccess), (withHost [.regWrite 0x08 1#32]).host ≠ .regWrite 0x00 w :: rest :=
  ⟨⟨_, rfl⟩, ⟨_, fun i => by cases i <;> decide, rfl⟩, _, rfl, fun _ _ h => by simp [withHost] at h⟩

theorem witness_DoneMarksTheFirstCompletion :
    (∃ t, step (withHost [.regWrite 0x00 1#32]) = .next t ∧ statusDone (withHost [.regWrite 0x00 1#32]).status = false ∧
      statusDone t.status = true) ∧
    ∃ t, step { withHost [.regRead 0x04] with status := 2#32 } = .next t ∧
      statusDone ({ withHost [.regRead 0x04] with status := 2#32 } : State).status = true :=
  ⟨⟨nextOf (step (withHost [.regWrite 0x00 1#32])), rfl, by decide, by decide⟩, _, rfl, by decide⟩

theorem witness_KeyStepIsABijection : 1#32 ≠ 0#32 := by decide

theorem witness_DetectCompletes :
    (withBytes 64 64 header).len.toNat ≤ (withBytes 64 64 header).cfg.bufCap ∧
      (withBytes 64 65 header).cfg.bufCap < (withBytes 64 65 header).len.toNat := by decide

theorem witness_DetectionIsIdempotent : ∃ t, exec .detect (withBytes 64 8 header) = .next t := ⟨_, rfl⟩

theorem witness_DecryptCompletes :
    ((withBytes 64 8 plain8).len.toNat ≤ 64 ∧ hasHeader (withBytes 64 8 plain8) = false) ∧
    (∀ l ∈ [9, 15], (withBytes 64 l cipher16).len.toNat ≤ 64 ∧ hasHeader (withBytes 64 l cipher16) = true ∧
      9 ≤ (withBytes 64 l cipher16).len.toNat ∧ (withBytes 64 l cipher16).len.toNat ≤ 15) ∧
    (∀ l ∈ [8, 16, 64], (withBytes 64 l cipher16).len.toNat ≤ (withBytes 64 l cipher16).cfg.bufCap ∧
      hasHeader (withBytes 64 l cipher16) = true ∧
      ((withBytes 64 l cipher16).len.toNat = 8 ∨ 16 ≤ (withBytes 64 l cipher16).len.toNat)) := by decide

theorem witness_DecryptFollowsTheSourceSteps :
    ∃ t, exec .decrypt (withBytes 64 16 cipher16) = .next t ∧ statusCode t.status = 0 :=
  ⟨nextOf (exec .decrypt (withBytes 64 16 cipher16)), rfl, by decide⟩

theorem witness_EncryptCompletes :
    (withBytes 64 8 header).cfg.wf ∧ (withBytes 64 64 header).len.toNat ≤ (withBytes 64 64 header).cfg.bufCap ∧
    hasHeader (withBytes 64 64 header) = true ∧
    (∀ l ∈ [1, 7], hasHeader (withBytes 64 l plain8) = false ∧ 1 ≤ (withBytes 64 l plain8).len.toNat ∧
      (withBytes 64 l plain8).len.toNat ≤ 7) ∧
    (∀ l ∈ [57, 64], hasHeader (withBytes 64 l plain8) = false ∧ 8 ≤ (withBytes 64 l plain8).len.toNat ∧
      (withBytes 64 l plain8).cfg.bufCap < (withBytes 64 l plain8).len.toNat + 8) ∧
    (∀ l ∈ [0, 8, 56], hasHeader (withBytes 64 l plain8) = false ∧
      ((withBytes 64 l plain8).len.toNat = 0 ∨ 8 ≤ (withBytes 64 l plain8).len.toNat) ∧
      (withBytes 64 l plain8).len.toNat + 8 ≤ (withBytes 64 l plain8).cfg.bufCap) := by decide

/-- For `EncryptFollowsTheSourceSteps`, `DecryptUndoesEncrypt` and `EncryptedBufferIsNotEncryptedAgain`. -/
theorem witness_encryptOk :
    (withBytes 64 8 plain8).cfg.wf ∧
      ∃ t, exec .encrypt (withBytes 64 8 plain8) = .next t ∧ statusCode t.status = 0 :=
  ⟨by decide, nextOf (exec .encrypt (withBytes 64 8 plain8)), rfl, by decide⟩

theorem witness_EncryptUndoesDecrypt :
    (withBytes 64 16 cipher16).cfg.wf ∧ ∃ t, exec .decrypt (withBytes 64 16 cipher16) = .next t ∧
      statusCode t.status = 0 ∧ hasHeader t = false :=
  ⟨by decide, nextOf (exec .decrypt (withBytes 64 16 cipher16)), rfl, by decide, by decide⟩

theorem witness_EmptyPlaintextRoundTrips : State.reset.cfg.wf ∧ State.reset.len = 0#32 := by decide

theorem witness_LengthAboveCapacityIsReportedFirst :
    (withBytes 64 65 header).cfg.bufCap < (withBytes 64 65 header).len.toNat := by decide

theorem witness_CommandFrame :
    (withBytes 64 16 cipher16).cfg.wf ∧ (∃ t, exec .derive (withBytes 64 16 cipher16) = .next t) ∧
      (∃ t, exec .detect (withBytes 64 16 cipher16) = .next t) ∧
      (∃ t, exec .decrypt (withBytes 64 16 cipher16) = .next t ∧ statusCode t.status = 0) ∧
      (∃ t, exec .encrypt (withBytes 64 8 plain8) = .next t ∧ statusCode t.status = 0) ∧
      (∃ t, exec .encrypt (withBytes 64 16 cipher16) = .next t ∧ statusCode t.status ≠ 0) :=
  ⟨by decide, ⟨_, rfl⟩, ⟨_, rfl⟩, ⟨nextOf (exec .decrypt (withBytes 64 16 cipher16)), rfl, by decide⟩,
    ⟨nextOf (exec .encrypt (withBytes 64 8 plain8)), rfl, by decide⟩,
    ⟨nextOf (exec .encrypt (withBytes 64 16 cipher16)), rfl, by decide⟩⟩

theorem witness_KeyRegisterWrites :
    (∃ t, exec .derive State.reset = .next t) ∧
      ∀ off ∈ [0x10, 0x14, 0x18, 0x1C], (off = 0x10 ∨ off = 0x14 ∨ off = 0x18 ∨ off = 0x1C) ∧
        (withHost [.regWrite off 9#32]).host = [.regWrite off 9#32] ∧
        (nextOf (step (withHost [.regWrite off 9#32]))).host = [] :=
  ⟨⟨_, rfl⟩, by decide⟩

theorem witness_LenRegisterWrites :
    (withBytes 64 16 cipher16).cfg.wf ∧
      (∃ t, exec .decrypt (withBytes 64 16 cipher16) = .next t ∧ statusCode t.status = 0) ∧
      (∃ t, Instr.detect ≠ .derive ∧ (withBytes 64 65 header).cfg.bufCap < (withBytes 64 65 header).len.toNat ∧
        exec .detect (withBytes 64 65 header) = .next t) ∧
      (withHost [.regWrite 0x08 0xFFFFFFFF#32]).host = [.regWrite 0x08 0xFFFFFFFF#32] ∧
      statusBusy (withHost [.regWrite 0x08 0xFFFFFFFF#32]).status = false :=
  ⟨by decide, ⟨nextOf (exec .decrypt (withBytes 64 16 cipher16)), rfl, by decide⟩, ⟨_, by decide, by decide, rfl⟩, by decide⟩

theorem witness_OperandRegisterBelongsToTheHost :
    (∃ t, step (withHost [.regWrite 0x0C 5#32]) = .next t ∧ t.n ≠ (withHost [.regWrite 0x0C 5#32]).n) ∧
      statusBusy (withHost [.regWrite 0x0C 5#32]).status = false ∧
      ∃ t, Instr.encrypt ≠ .derive ∧ exec .encrypt State.reset = .next t :=
  ⟨⟨nextOf (step (withHost [.regWrite 0x0C 5#32])), rfl, by decide⟩, by decide, _, by decide, rfl⟩

/-- Two states that agree on the inputs, and differ in a byte above `LEN`, the key and `STATUS`. -/
theorem witness_ResultsDependOnTheInputsOnly :
    let s := withBytes 64 1 [7#8, 1#8]
    let s' := { withBytes 64 1 [7#8, 2#8] with k := deriveKey 5#32, status := 6#32 }
    s'.cfg.bufCap = s.cfg.bufCap ∧ s'.n = s.n ∧ s'.len = s.len ∧ (∀ a, a < s.len.toNat → byteAt s' a = byteAt s a) ∧
      s' ≠ s := by decide

/-- Two states that differ in a byte above the first 8 only, and two that agree on `N` only. -/
theorem witness_DeriveAndDetectReadNothingElse :
    (withBytes 8 3 plain8).n = (withBytes 64 1 [7#8]).n ∧
    let s := withBytes 64 9 (header ++ [1#8])
    let s' := withBytes 64 9 (header ++ [2#8])
    s'.cfg.bufCap = s.cfg.bufCap ∧ s'.len = s.len ∧
      (∀ a, a < s.len.toNat → a < 8 → byteAt s' a = byteAt s a) ∧ s' ≠ s := by decide

theorem witness_HostProgramsEnd :
    (∃ t, step State.reset = .next t) ∧ (∃ t, step (withHost [.regRead 0x04]) = .next t) ∧
      (∃ t, runSteps (withHost [.regRead 0x04, .regWrite 0x00 4#32]).host.length
        (withHost [.regRead 0x04, .regWrite 0x00 4#32]) = .next t) ∧
      ∀ p ∈ [[], [.regRead 0x1C, .regWrite 0x00 4#32, .bufRead 63, .bufWrite 63 1#8]],
        statusBusy (withHost p).status = false ∧
          ∀ a ∈ (withHost p).host, a.wellFormed (withHost p).cfg.bufCap = true :=
  ⟨⟨_, rfl⟩, ⟨_, rfl⟩, ⟨_, rfl⟩, by decide⟩

theorem witness_LoadFillsTheBuffer :
    ∀ bs ∈ [[], plain8], (⟨8, 0⟩ : Config).wf ∧ statusBusy ({ State.resetWith ⟨8, 0⟩ with host := load bs } : State).status = false ∧
      bs.length ≤ ({ State.resetWith ⟨8, 0⟩ with host := load bs } : State).cfg.bufCap ∧
      ({ State.resetWith ⟨8, 0⟩ with host := load bs } : State).host = load bs := by decide

end Sys2Proof.Tests
end

/-! The registers of the state (spec/10_state.md sections 2, 7 and 11): what a command does in one equation
(`exec_eq`), what one host access does to `N`, and the obligations of this family. -/

namespace Sys2Proof.Machine

/-! A command as one equation: its outcome, its header flag, and the writes it makes if the outcome is `OK`. -/

/-- The outcome of a command, checked in the order of rule R128. -/
def commandOutcome : Instr → State → ResultCode
  | .derive, _ => .ok
  | .decrypt, s =>
    if s.cfg.bufCap < s.len.toNat then .badLength
    else if hasHeader s = false then .notEncrypted
    else if 1 ≤ s.len.toNat - 8 ∧ s.len.toNat - 8 ≤ 7 then .malformedCiphertext
    else .ok
  | .detect, s => if s.cfg.bufCap < s.len.toNat then .badLength else .ok
  | .encrypt, s =>
    if s.cfg.bufCap < s.len.toNat then .badLength
    else if hasHeader s = true then .alreadyEncrypted
    else if 1 ≤ s.len.toNat ∧ s.len.toNat ≤ 7 then .shortPayload
    else if s.cfg.bufCap < s.len.toNat + 8 then .capacity
    else .ok

/-- The header flag a command leaves (rule R23): the header test where the command makes it, else 0. -/
def commandHdr (i : Instr) (s : State) : Bool :=
  decide (i ≠ .derive) && decide (s.len.toNat ≤ s.cfg.bufCap) && hasHeader s

/-- The writes of a command that ends `OK`, other than `STATUS` (rules R78, R86, R96, R106). -/
def commandWrites : Instr → State → State
  | .derive, s => s.setKey (deriveKey s.n)
  | .decrypt, s => decryptWrites s
  | .detect, s => s
  | .encrypt, s => encryptWrites s

/-- The state a command leaves: its writes only if it ends `OK`, and `STATUS` rewritten whole (rule R117). -/
def commandResult (i : Instr) (s : State) : State :=
  completeWith (commandOutcome i s) (commandHdr i s) (if commandOutcome i s = .ok then commandWrites i s else s)

theorem lengthTooLarge_iff {s : State} : lengthTooLarge s = true ↔ s.cfg.bufCap < s.len.toNat := by
  simp [lengthTooLarge]

theorem commandHdr_of_tooLong {i : Instr} {s : State} (h : s.cfg.bufCap < s.len.toNat) : commandHdr i s = false := by
  simp [commandHdr, h]

theorem commandHdr_of_tested {i : Instr} {s : State} (hi : i ≠ .derive) (h : ¬ s.cfg.bufCap < s.len.toNat) :
    commandHdr i s = hasHeader s := by
  simp [commandHdr, hi, Nat.le_of_not_lt h]

theorem commandOutcome_of_tooLong {i : Instr} {s : State} (hi : i ≠ .derive) (h : s.cfg.bufCap < s.len.toNat) :
    commandOutcome i s = .badLength := by
  cases i with
  | derive => exact absurd rfl hi
  | decrypt | detect | encrypt => exact if_pos h

/-- Every command completes, with `commandResult`. -/
theorem exec_eq (i : Instr) (s : State) : exec i s = .next (commandResult i s) := by
  by_cases hcap : s.cfg.bufCap < s.len.toNat
  · cases i with
    | derive => rfl
    | decrypt | detect | encrypt =>
      simp [exec, execDecrypt, execDetect, execEncrypt, lengthTooLarge_iff, commandResult, commandOutcome_of_tooLong,
        commandHdr_of_tooLong, hcap, raiseOutcome]
  · cases i with
    | derive => rfl
    | detect =>
      simp [exec, execDetect, lengthTooLarge_iff, commandResult, commandOutcome, commandHdr_of_tested, hcap, finishOk,
        commandWrites]
    | decrypt =>
      simp only [exec, execDecrypt, lengthTooLarge_iff, commandResult, commandOutcome, if_neg hcap,
        commandHdr_of_tested (i := .decrypt) (by decide) hcap]
      by_cases hhdr : hasHeader s = false
      · simp [hhdr, raiseOutcome]
      by_cases hlen : 1 ≤ s.len.toNat - 8 ∧ s.len.toNat - 8 ≤ 7
      · simp only [if_pos hlen, Bool.of_not_eq_false hhdr]
        rfl
      · simp only [if_neg hlen, Bool.of_not_eq_false hhdr]
        rfl
    | encrypt =>
      simp only [exec, execEncrypt, lengthTooLarge_iff, commandResult, commandOutcome, if_neg hcap,
        commandHdr_of_tested (i := .encrypt) (by decide) hcap]
      by_cases hhdr : hasHeader s = true
      · simp [hhdr, raiseOutcome]
      by_cases hlen : 1 ≤ s.len.toNat ∧ s.len.toNat ≤ 7
      · simp [hhdr, if_pos hlen, raiseOutcome]
      by_cases hroom : s.cfg.bufCap < s.len.toNat + 8
      · simp [hhdr, if_neg hlen, hroom, raiseOutcome]
      · simp [hhdr, if_neg hlen, hroom, finishOk, commandWrites]

theorem exec_eq_next {i : Instr} {s t : State} : exec i s = .next t ↔ t = commandResult i s := by
  rw [exec_eq, Host.Outcome.next.injEq, eq_comm]

/-! The registers after a command. -/

@[simp] theorem number_eq_zero {x : ResultCode} : x.number = 0#4 ↔ x = .ok := by
  cases x <;> decide

@[simp] theorem commandResult_status (i : Instr) (s : State) :
    (commandResult i s).status = completedStatus (commandOutcome i s) (commandHdr i s) := rfl

@[simp] theorem commandResult_k (i : Instr) (s : State) :
    (commandResult i s).k = if commandOutcome i s = .ok then (commandWrites i s).k else s.k := by
  simp only [commandResult, completeWith_k, apply_ite State.k]

@[simp] theorem commandResult_len (i : Instr) (s : State) :
    (commandResult i s).len = if commandOutcome i s = .ok then (commandWrites i s).len else s.len := by
  simp only [commandResult, completeWith_len, apply_ite State.len]

@[simp] theorem commandWrites_n (i : Instr) (s : State) : (commandWrites i s).n = s.n := by
  cases i <;> rfl

@[simp] theorem commandResult_n (i : Instr) (s : State) : (commandResult i s).n = s.n := by
  simp only [commandResult, completeWith_n, apply_ite State.n, commandWrites_n, ite_self]

/-! What an outcome says about the length before the command. -/

/-- A successful `DECRYPT` had the header, so at least 8 bytes. -/
theorem len_of_decrypt_ok {s : State} (h : commandOutcome .decrypt s = .ok) : 8 ≤ s.len.toNat := by
  refine len_of_hasHeader (Bool.of_not_eq_false fun hh => ?_)
  simp only [commandOutcome, if_pos hh] at h
  split at h <;> cases h

/-- A successful `ENCRYPT` has room for the 8 bytes it adds. -/
theorem len_of_encrypt_ok {s : State} (h : commandOutcome .encrypt s = .ok) : s.len.toNat + 8 ≤ s.cfg.bufCap := by
  by_contra hc
  simp only [commandOutcome, if_pos (Nat.lt_of_not_le hc)] at h
  split_ifs at h

/-! What no command reads: another value in `STATUS`, `K` or (but for `DERIVE`) `N` changes neither the outcome nor the flag. -/

theorem commandOutcome_setStatus (i : Instr) (s : State) (w : Word) :
    commandOutcome i (s.setStatus w) = commandOutcome i s := by
  cases i <;> rfl

theorem commandHdr_setStatus (i : Instr) (s : State) (w : Word) : commandHdr i (s.setStatus w) = commandHdr i s := rfl

/-- `STATUS` is no input of a command (rule R23), and what it held is lost. -/
theorem commandResult_setStatus (i : Instr) (s : State) (w : Word) : commandResult i (s.setStatus w) = commandResult i s := by
  simp only [commandResult, commandOutcome_setStatus, commandHdr_setStatus]
  split
  · cases i <;> rfl
  · rfl

theorem commandOutcome_setKey (i : Instr) (s : State) (k : Key) : commandOutcome i (s.setKey k) = commandOutcome i s := by
  cases i <;> rfl

theorem commandOutcome_setN (i : Instr) (s : State) (v : Word) : commandOutcome i (s.setN v) = commandOutcome i s := by
  cases i <;> rfl

theorem commandHdr_setKey (i : Instr) (s : State) (k : Key) : commandHdr i (s.setKey k) = commandHdr i s := rfl

theorem commandHdr_setN (i : Instr) (s : State) (v : Word) : commandHdr i (s.setN v) = commandHdr i s := rfl

/-- The key registers are no input of a command (rule R16): with another key before it, the result differs in the key at
most. -/
theorem commandResult_setKey (i : Instr) (s : State) (k : Key) :
    commandResult i (s.setKey k) = (commandResult i s).setKey (commandResult i (s.setKey k)).k := by
  rw [commandResult_k]
  simp only [commandResult, commandOutcome_setKey, commandHdr_setKey]
  split
  · cases i <;> rfl
  · rfl

/-- `N` is no input of a command but `DERIVE` (rule R14). -/
theorem commandResult_setN {i : Instr} (hi : i ≠ .derive) (s : State) (v : Word) :
    commandResult i (s.setN v) = (commandResult i s).setN v := by
  simp only [commandResult, commandOutcome_setN, commandHdr_setN]
  split
  · cases i with
    | derive => exact absurd rfl hi
    | decrypt => rfl
    | detect => rfl
    | encrypt => rfl
  · rfl

/-! Illegal words. -/

/-- A word is its two fields (rule R52). -/
theorem word_eq_fields (w : Word) : w = zeroField w ++ opField w := by
  rw [zeroField, opField,
    BitVec.extractLsb'_append_extractLsb'_eq_extractLsb' (start₁ := 0) (len₁ := 8) (start₂ := 8) rfl, BitVec.extractLsb'_eq_self]

theorem decode_eq_ok {w : Word} {i : Instr} (h : decode w = .ok i) : w = encode i := by
  rw [word_eq_fields w, encode]
  unfold decode at h
  split_ifs at h <;> cases h <;> simp_all [opcode]

/-- A word that is no command's ends `ILLEGAL_COMMAND` (rules R56, R126). -/
theorem issue_illegal {w : Word} (hw : ∀ i, w ≠ encode i) (s : State) :
    issue w s = .next (raiseOutcome .illegalCommand false s) := by
  rcases issue_cases w s with ⟨i, hi, -⟩ | ⟨-, h⟩
  · exact absurd (decode_eq_ok hi) (hw i)
  · exact h

theorem issue_n {w : Word} {s t : State} (h : issue w s = .next t) : t.n = s.n := by
  rcases issue_cases w s with ⟨i, -, hi⟩ | ⟨-, hi⟩
  · rw [hi, exec_eq_next] at h
    rw [h, commandResult_n]
  · cases hi.symm.trans h
    rfl

/-! What one host access does to the registers. -/

/-- An event that is no write to `CMD` leaves `STATUS` and the key as they are (rule R60). -/
theorem step_status_k_of_not_cmd {s t : State} (h : step s = .next t)
    (hcmd : ∀ (w : Word) (rest : List HostAccess), s.host ≠ .regWrite 0x00 w :: rest) :
    t.status = s.status ∧ t.k = s.k := by
  obtain ⟨-, rfl⟩ | ⟨a, rest, hhost, ha⟩ := step_cases h
  · exact ⟨rfl, rfl⟩
  obtain ⟨r, rfl⟩ | rfl | ⟨v, rfl⟩ | ⟨v, rfl⟩ | ⟨x, v, -, -, rfl⟩ | ⟨w, rfl, -, -⟩ := hostAccess_cases ha
  case inr.inr.inr.inr.inr => exact absurd hhost (hcmd w rest)
  all_goals exact ⟨rfl, rfl⟩

/-- A register write that has an effect is one to a register of the map, on an idle block. -/
theorem hostAccess_regWrite_inv {off : Nat} {v : Word} {s t : State} (h : hostAccess (.regWrite off v) s = .next t) :
    statusBusy s.status = false ∧ ∃ r : Register, off = r.offset ∧ writeRegister r v s = .next t := by
  by_cases hb : statusBusy s.status = true
  · rw [hostAccess_busy hb (by simp)] at h
    cases h
  rw [Bool.not_eq_true] at hb
  refine ⟨hb, ?_⟩
  by_cases ho : off % 4 = 0 ∧ off ≤ 0x1C
  · obtain ⟨r, hr⟩ := Option.ne_none_iff_exists'.1 (mt registerAt_eq_none.1 (not_not.2 ho))
    rw [registerAt_eq_some] at hr
    subst hr
    exact ⟨r, rfl, hostAccess_regWrite hb ▸ h⟩
  · rw [(hostAccess_badOffset hb ho v).2] at h
    cases h

/-- A write to a register other than `N` leaves `N` (rules R20, R27). -/
theorem writeRegister_n {r : Register} {v : Word} {s t : State} (h : writeRegister r v s = .next t) :
    t.n = if r = .n then v else s.n := by
  cases r with
  | cmd => exact issue_n h
  | _ => cases h; rfl

/-- An access that is no register write leaves `N`. -/
theorem hostAccess_n_of_not_regWrite {a : HostAccess} {s t : State} (ha : ∀ off v, a ≠ .regWrite off v)
    (h : hostAccess a s = .next t) : t.n = s.n := by
  unfold hostAccess at h
  split at h
  · cases h
  cases a with
  | regWrite off v => exact absurd rfl (ha off v)
  | otherWidth => cases h
  | _ =>
    simp only at h
    split at h <;> cases h
    rfl

/-- `N` changes only by a write at its own offset, to the value written (rule R14). -/
theorem hostAccess_n_cases {a : HostAccess} {s t : State} (h : hostAccess a s = .next t) :
    t.n = s.n ∨ a = .regWrite 0x0C t.n := by
  by_cases ha : ∃ off v, a = .regWrite off v
  · obtain ⟨off, v, rfl⟩ := ha
    obtain ⟨-, r, rfl, hw⟩ := hostAccess_regWrite_inv h
    have hn := writeRegister_n hw
    by_cases hr : r = .n
    · subst hr
      exact .inr (by rw [hn]; rfl)
    · exact .inl (by rw [hn, if_neg hr])
  · exact .inl (hostAccess_n_of_not_regWrite (fun off v e => ha ⟨off, v, e⟩) h)

/-- A write at a register's offset on an idle block is the write of that register. -/
theorem step_regWrite {s : State} {r : Register} {v : Word} {rest : List HostAccess}
    (h : s.host = .regWrite r.offset v :: rest) (hb : statusBusy s.status = false) :
    step s = writeRegister r v (s.setHost rest) := by
  rw [step_access h, hostAccess_regWrite (s := s.setHost rest) hb]

/-! The obligations. -/

/-- Settles O21: `exec_eq` names the flag, and the result of a command does not depend on `STATUS`. -/
theorem headerFlagDescribesTheBufferBefore : Obligations.HeaderFlagDescribesTheBufferBefore := by
  refine ⟨fun i s t h => ?_, fun w s t hw h => ?_, fun s t h hcmd => ?_, fun i s w => ?_, by decide⟩
  · rw [exec_eq_next.1 h, commandResult_status, statusHdr_completed, commandHdr]
  · rw [issue_illegal hw] at h
    cases h
    exact statusHdr_completed _ _
  · rw [(step_status_k_of_not_cmd h hcmd).1]
  · rw [exec_eq, exec_eq]
    exact congrArg _ (commandResult_setStatus i s w)

/-- Settles O42: the key is written with the other writes of an `OK` outcome, and never read. -/
theorem keyRegisterWrites : Obligations.KeyRegisterWrites := by
  refine ⟨fun i s t h => ?_, fun s t off v rest hoff hhost h => ?_, fun i s t k h => ?_⟩
  · rw [exec_eq_next.1 h, commandResult_status, statusCode_completed, commandResult_k]
    by_cases hok : commandOutcome i s = .ok
    · cases i <;> simp [hok, commandWrites]
    · simp [hok]
  · refine (step_status_k_of_not_cmd h fun w rest' hcmd => ?_).2
    have hzero : off = 0 := by simp_all
    omega
  · refine ⟨_, exec_eq i (s.setKey k), ?_⟩
    rw [exec_eq_next.1 h]
    exact commandResult_setKey i s k

/-- Settles O43: the bounds an `OK` outcome implies keep `LEN + 8` and `LEN - 8` from wrapping. -/
theorem lenRegisterWrites : Obligations.LenRegisterWrites := by
  refine ⟨fun i s t hwf h => ?_, fun s t h hcode => ?_, fun i hi s t hlen h => ?_, fun s v rest hhost hb => ?_⟩
  · rw [exec_eq_next.1 h, commandResult_status, statusCode_completed, commandResult_len]
    by_cases hok : commandOutcome i s = .ok
    · cases i with
      | derive | detect => simp [commandWrites]
      | decrypt =>
        have hle : 8#32 ≤ s.len := len_of_decrypt_ok hok
        simp [hok, commandWrites, BitVec.toNat_sub_of_le hle]
      | encrypt =>
        have hlt : s.len.toNat + (8#32).toNat < 2 ^ 32 := by
          have hroom := len_of_encrypt_ok hok
          have hbound := hwf.2
          simp only [BitVec.reduceToNat]
          omega
        simp [hok, commandWrites, BitVec.toNat_add_of_lt hlt]
    · simp [hok]
  · rw [exec_eq_next.1 h, commandResult_status, statusCode_completed] at hcode
    exact len_of_decrypt_ok (number_eq_zero.1 hcode)
  · rw [exec_eq_next.1 h, commandResult_status, statusCode_completed, commandOutcome_of_tooLong hi hlen]
    rfl
  · exact ⟨_, step_regWrite (r := .len) hhost hb, rfl⟩

/-- Settles O44: only a write at its offset reaches `N`, and only `DERIVE` reads it. -/
theorem operandRegisterBelongsToTheHost : Obligations.OperandRegisterBelongsToTheHost := by
  refine ⟨fun s t h hn => ?_, fun s v rest hhost hb => ?_, fun i s t v hi h => ?_⟩
  · obtain ⟨-, rfl⟩ | ⟨a, rest, hhost, ha⟩ := step_cases h
    · exact absurd rfl hn
    · exact ⟨t.n, rest, (hostAccess_n_cases ha).resolve_left hn ▸ hhost, rfl⟩
  · exact step_regWrite (r := .n) hhost hb
  · rw [exec_eq_next.1 h, exec_eq]
    exact congrArg _ (commandResult_setN hi s v)

/-- The key of length 0 is the reset value of `K[0..3]` (rule R29). -/
theorem deriveKey_zero : deriveKey 0#32 = ⟨0#32, 0#32, 0#32, 0#32⟩ := by decide

/-- Settles O15: field by field, and a memory with no byte written reads as its power-on contents. -/
theorem resetLeavesTheListedValues : Obligations.ResetLeavesTheListedValues := by
  refine ⟨fun c => ⟨rfl, rfl, rfl, rfl, ?_, ?_, fun a => ?_⟩, ⟨64, 0⟩, by decide, rfl⟩
  · rw [resetWith_k, deriveKey_zero]
  · rw [resetWith_status]
    decide
  · rw [byteAt, resetWith_buf, lookup_nil, resetWith_cfg, Option.getD_none]

end Sys2Proof.Machine

/-! The keystream block as data in memory (spec/20_memory.md rule R35): its bytes read as slices of the key words, the
word that four of them give back, and the obligation of this family. -/

namespace Sys2Proof.Machine

/-- Byte `b` of word `j` in the keystream is the slice of that word from bit `8 * b` (rules R35, R36). -/
theorem keystreamByte_eq_extractLsb' (k : Key) (j : Nat) {b : Nat} (hb : b < 4) :
    keystreamByte k (4 * j + b) = (k.word j).extractLsb' (8 * b) 8 := by
  have hword : (4 * j + b) / 4 = j := by omega
  have hbyte : (4 * j + b) % 4 = b := by omega
  rw [keystreamByte, hword, hbyte, BitVec.setWidth_ushiftRight_eq_extractLsb]

/-- The four bytes of one key word in the keystream, most significant first, are that word. -/
theorem keystreamByte_append (k : Key) (j : Nat) :
    keystreamByte k (4 * j + 3) ++ keystreamByte k (4 * j + 2) ++ keystreamByte k (4 * j + 1) ++
      keystreamByte k (4 * j + 0) = k.word j := by
  have h (b : Nat) (hb : b < 4) := keystreamByte_eq_extractLsb' k j hb
  rw [h 3 (by decide), h 2 (by decide), h 1 (by decide), h 0 (by decide),
    BitVec.extractLsb'_append_extractLsb'_eq_extractLsb', BitVec.extractLsb'_append_extractLsb'_eq_extractLsb',
    BitVec.extractLsb'_append_extractLsb'_eq_extractLsb']
  · exact BitVec.extractLsb'_eq_self
  all_goals rfl

/-- Settles O28: `keystreamByte_append` at each of the four words. -/
theorem keystreamIsLittleEndian : Obligations.KeystreamIsLittleEndian := fun k =>
  ⟨keystreamByte_append k 0, keystreamByte_append k 1, keystreamByte_append k 2, keystreamByte_append k 3⟩

end Sys2Proof.Machine

/-! The encoding of command words (spec/30_encoding.md sections 1 and 4): which words are well formed, by their two fields
and as numbers, and what the issue of any other word does. -/

namespace Sys2Proof.Machine

/-- `w[7:0]` as a number. -/
theorem opField_toNat (w : Word) : (opField w).toNat = w.toNat % 256 := by
  simp [opField]

/-- `w[31:8]` as a number. -/
theorem zeroField_toNat (w : Word) : (zeroField w).toNat = w.toNat / 256 := by
  have hbound : w.toNat / 256 < 2 ^ 24 := by omega
  rw [zeroField, BitVec.extractLsb'_toNat, Nat.shiftRight_eq_div_pow, Nat.mod_eq_of_lt hbound]

/-- The check of rule R53 says what the rule says of the two fields of rule R52. -/
theorem commandWordWellFormed_iff_fields {w : Word} :
    commandWordWellFormed w = true ↔
      zeroField w = 0#24 ∧ (opField w = 1#8 ∨ opField w = 2#8 ∨ opField w = 3#8 ∨ opField w = 4#8) := by
  simp [commandWordWellFormed, zeroField, opField, or_assoc]

/-- Rule R53 on the word as a number. -/
theorem commandWordWellFormed_iff_toNat {w : Word} :
    commandWordWellFormed w = true ↔
      w.toNat / 256 = 0 ∧ (w.toNat % 256 = 1 ∨ w.toNat % 256 = 2 ∨ w.toNat % 256 = 3 ∨ w.toNat % 256 = 4) := by
  simp only [commandWordWellFormed_iff_fields, ← BitVec.toNat_inj, zeroField_toNat, opField_toNat, BitVec.reduceToNat]

/-- The laws of a command's word, for every command. -/
theorem commandWord_statement (i : Instr) : Laws.CommandWord.Statement i := by
  cases i with
  | derive => exact Laws.CommandWord.derive
  | decrypt => exact Laws.CommandWord.decrypt
  | detect => exact Laws.CommandWord.detect
  | encrypt => exact Laws.CommandWord.encrypt

/-- Settles O2: the fields as quotient and remainder by 256, which together are the word. -/
theorem wellFormedWordsAreTheFour : Obligations.WellFormedWordsAreTheFour := by
  refine fun w => ⟨commandWordWellFormed_iff_toNat, ?_⟩
  rw [commandWordWellFormed_iff_toNat]
  simp only [← BitVec.toNat_inj, BitVec.reduceToNat]
  omega

/-- Settles O4: a command's word is well formed, so this one is none and its issue ends `ILLEGAL_COMMAND`. -/
theorem illegalWordsChangeOnlyStatus : Obligations.IllegalWordsChangeOnlyStatus := by
  intro s w rest hhost hidle hillegal
  have hnone : ∀ i, w ≠ encode i := by
    rintro i rfl
    obtain ⟨-, hword, -⟩ := commandWord_statement i
    obtain ⟨hzero, hop⟩ := commandWordWellFormed_iff_toNat.1 hword
    omega
  have hstatus : completedStatus .illegalCommand false = 0x00000702#32 := by decide
  rw [step_cmd hhost hidle, issue_illegal hnone, ← hstatus]
  rfl

end Sys2Proof.Machine

/-! Key derivation (spec/40_key_derivation.md): the mixer in the source's two spellings, the key as four applications of one
step, and the obligations of this family. -/

namespace Sys2Proof.Machine

/-- The mixer as the source writes `mix2` (rule R68). -/
theorem mix2_eq_source_mix2 (x : Word) : mix2 x = (((x <<< 13) ^^^ x) >>> 17) ^^^ (x <<< 13) ^^^ x := by
  rw [mix2, mixT, BitVec.xor_comm x, BitVec.xor_assoc]

/-- The mixer as the source writes `mix1` (rule R71). -/
theorem mix2_eq_source_mix1 (x : Word) : mix2 x = ((x ^^^ (x <<< 13)) >>> 17) ^^^ x ^^^ (x <<< 13) := by
  rw [mix2, mixT, BitVec.xor_assoc]

/-- The step `S(x) = fin(mix2(x))` from one key word to the next (rule R73). -/
def keyStep (x : Word) : Word := fin32 (mix2 x)

/-- The key is four successive applications of the step (rule R73). -/
theorem deriveKey_eq_keyStep (n : Word) :
    deriveKey n = ⟨keyStep n, keyStep (keyStep n), keyStep (keyStep (keyStep n)),
      keyStep (keyStep (keyStep (keyStep n)))⟩ := rfl

/-- Settles O24: each listed word is the step of the one before; the last is written with the operands of `fin` swapped. -/
theorem deriveKeyFollowsTheListing : Obligations.DeriveKeyFollowsTheListing := by
  intro n mix2' mix1 a b c d e f g
  have ha : keyStep n = a := congrArg fin32 (mix2_eq_source_mix1 n)
  have hc : keyStep a = c := congrArg fin32 (mix2_eq_source_mix2 a)
  have he : keyStep c = e := congrArg fin32 (mix2_eq_source_mix2 c)
  have hg : keyStep e = g := (congrArg fin32 (mix2_eq_source_mix2 e)).trans (BitVec.xor_comm (32#32 * f) f)
  rw [deriveKey_eq_keyStep, ha, hc, he, hg]

/-- Settles O25: `DERIVE` always ends `OK` with flag 0, and its one write is the key. -/
theorem deriveCompletes : Obligations.DeriveCompletes := by
  intro s
  have hstatus : completedStatus .ok false = 0x00000002#32 := by decide
  rw [exec_eq, ← hstatus]
  rfl

end Sys2Proof.Machine

/-! Decryption (spec/41_decrypt.md): what a command does in each case of its outcome, the content length without wrapping,
the source's steps on a sequence given by index, and the obligations of this family. -/

namespace Sys2Proof.Machine

/-! The end of a command, by its outcome. -/

/-- An outcome other than `OK` writes nothing but `STATUS` (rule R117). -/
theorem exec_of_error {i : Instr} {s : State} (h : commandOutcome i s ≠ .ok) :
    exec i s = .next (raiseOutcome (commandOutcome i s) (commandHdr i s) s) := by
  rw [exec_eq, commandResult, if_neg h, raiseOutcome]

/-- An `OK` outcome has the writes of the command's own rule. -/
theorem exec_of_ok {i : Instr} {s : State} (h : commandOutcome i s = .ok) :
    exec i s = .next (finishOk (commandHdr i s) (commandWrites i s)) := by
  rw [exec_eq, commandResult, if_pos h, h, finishOk]

/-- A command whose `STATUS` shows code 0 ended `OK`. -/
theorem exec_code_zero {i : Instr} {s t : State} (h : exec i s = .next t) (hcode : statusCode t.status = 0) :
    commandOutcome i s = .ok ∧ t = finishOk (commandHdr i s) (commandWrites i s) := by
  have hok : commandOutcome i s = .ok := by
    rw [exec_eq_next.1 h, commandResult_status, statusCode_completed] at hcode
    exact number_eq_zero.1 hcode
  rw [exec_of_ok hok] at h
  cases h
  exact ⟨hok, rfl⟩

/-! `DECRYPT` on a length that the memory can hold, case by case (rules R86, R88, R89). -/

/-- With `LEN` within the capacity, the flag a `DECRYPT` leaves is the header test. -/
theorem commandHdr_decrypt {s : State} (hcap : s.len.toNat ≤ s.cfg.bufCap) : commandHdr .decrypt s = hasHeader s :=
  commandHdr_of_tested (by decide) (Nat.not_lt.2 hcap)

theorem exec_decrypt_passthrough {s : State} (hcap : s.len.toNat ≤ s.cfg.bufCap) (hhdr : hasHeader s = false) :
    exec .decrypt s = .next (raiseOutcome .notEncrypted false s) := by
  have hout : commandOutcome .decrypt s = .notEncrypted := by
    rw [commandOutcome, if_neg (Nat.not_lt.2 hcap), if_pos hhdr]
  rw [exec_of_error (by simp [hout]), hout, commandHdr_decrypt hcap, hhdr]

/-- With the header and `LEN` within the capacity, only the content length decides the outcome. -/
theorem commandOutcome_decrypt_of_header {s : State} (hcap : s.len.toNat ≤ s.cfg.bufCap) (hhdr : hasHeader s = true) :
    commandOutcome .decrypt s =
      if 1 ≤ s.len.toNat - 8 ∧ s.len.toNat - 8 ≤ 7 then .malformedCiphertext else .ok := by
  rw [commandOutcome, if_neg (Nat.not_lt.2 hcap), if_neg (by simp [hhdr])]

theorem exec_decrypt_malformed {s : State} (hcap : s.len.toNat ≤ s.cfg.bufCap) (hhdr : hasHeader s = true)
    (hlen : 1 ≤ s.len.toNat - 8 ∧ s.len.toNat - 8 ≤ 7) :
    exec .decrypt s = .next (raiseOutcome .malformedCiphertext true s) := by
  have hout : commandOutcome .decrypt s = .malformedCiphertext := by
    rw [commandOutcome_decrypt_of_header hcap hhdr, if_pos hlen]
  rw [exec_of_error (by simp [hout]), hout, commandHdr_decrypt hcap, hhdr]

theorem exec_decrypt_transform {s : State} (hcap : s.len.toNat ≤ s.cfg.bufCap) (hhdr : hasHeader s = true)
    (hlen : ¬ (1 ≤ s.len.toNat - 8 ∧ s.len.toNat - 8 ≤ 7)) :
    exec .decrypt s = .next (finishOk true (decryptWrites s)) := by
  have hout : commandOutcome .decrypt s = .ok := by
    rw [commandOutcome_decrypt_of_header hcap hhdr, if_neg hlen]
  rw [exec_of_ok hout, commandHdr_decrypt hcap, hhdr, commandWrites]

/-! The content length of a sequence that can hold the header. -/

/-- `LEN - 8` does not wrap when the sequence has 8 bytes (rule R15). -/
theorem contentLength_toNat {w : Word} (h : 8 ≤ w.toNat) : (w - 8#32).toNat = w.toNat - 8 :=
  BitVec.toNat_sub_of_le (BitVec.le_def.2 h)

theorem contentLength_eq_ofNat {w : Word} (h : 8 ≤ w.toNat) : w - 8#32 = BitVec.ofNat 32 (w.toNat - 8) := by
  rw [← contentLength_toNat h, BitVec.ofNat_toNat, BitVec.setWidth_eq]

/-! The source's steps on a sequence given by index. -/

/-- XOR with the cycled keystream, index by index (rule R84 step 4). -/
theorem xorCycled_map_range (k : Key) (l : Nat) (f : Nat → Byte) :
    xorCycled k ((List.range l).map f) = (List.range l).map fun i => f i ^^^ keystreamAt k i := by
  refine List.ext_getElem (by simp [xorCycled]) fun i _ _ => ?_
  simp [xorCycled]

/-- The last 8 bytes brought to the front and the sequence truncated by 8, index by index (rule R84 steps 2 and 3). -/
theorem take_overwriteFirst8WithLast8_map_range (l : Nat) (f : Nat → Byte) :
    (overwriteFirst8WithLast8 ((List.range (l + 8)).map f)).take l =
      (List.range l).map fun i => if i < 8 then f (l + i) else f i := by
  refine List.ext_getElem (by simp [overwriteFirst8WithLast8]) fun i _ _ => ?_
  by_cases hi : i < 8
  · simp [overwriteFirst8WithLast8, hi]
  · have hback : 8 + (i - 8) = i := by omega
    simp [overwriteFirst8WithLast8, List.getElem_append, hi, hback]

/-- The sequence after the decrypt transform (rule R86). -/
theorem contents_decryptWrites (s : State) :
    contents (decryptWrites s) =
      (List.range (s.len - 8#32).toNat).map
        (decryptedByte s (s.len - 8#32).toNat (deriveKey (s.len - 8#32))) := by
  refine List.map_congr_left fun a ha => ?_
  rw [decryptWrites_len, List.mem_range] at ha
  rw [byteAt_decryptWrites, if_pos ha]

/-- On a sequence of at least 8 bytes the decrypt transform is the source's `Decrypt` (rules R84, R86). -/
theorem contents_decryptWrites_eq_sourceDecrypt {s : State} (h : 8 ≤ s.len.toNat) :
    contents (decryptWrites s) = sourceDecrypt (contents s) := by
  obtain ⟨l, hl⟩ := Nat.exists_eq_add_of_le' h
  have hsub : s.len.toNat - 8 = l := by omega
  have hcontents : contents s = (List.range (l + 8)).map (byteAt s) := by rw [contents, hl]
  have hlength : ((List.range (l + 8)).map (byteAt s)).length - 8 = l := by simp
  rw [contents_decryptWrites, contentLength_toNat h, contentLength_eq_ofNat h, hsub, hcontents, sourceDecrypt, hlength,
    take_overwriteFirst8WithLast8_map_range, xorCycled_map_range]
  rfl

/-! The obligations. -/

/-- Settles O32: one lemma for each outcome, and the transform's bytes with a content length that does not wrap. -/
theorem decryptCompletes : Obligations.DecryptCompletes := by
  refine fun s hcap => ⟨fun hhdr => ?_, fun hhdr hlow hhigh => ?_, fun hhdr hlen => ?_⟩
  · have hstatus : completedStatus .notEncrypted false = 0x00000102#32 := by decide
    rw [exec_decrypt_passthrough hcap hhdr, ← hstatus]
    rfl
  · have hstatus : completedStatus .malformedCiphertext true = 0x00000306#32 := by decide
    rw [exec_decrypt_malformed hcap hhdr (by omega), ← hstatus]
    rfl
  · have hstatus : completedStatus .ok true = 0x00000006#32 := by decide
    have hmin : 8 ≤ s.len.toNat := len_of_hasHeader hhdr
    refine ⟨_, exec_decrypt_transform hcap hhdr (by omega), ?_, contentLength_toNat hmin, ?_, fun j => ?_⟩
    · rw [← hstatus]
      rfl
    · rw [finishOk_k, decryptWrites_k, contentLength_eq_ofNat hmin]
    · rw [byteAt_finishOk, byteAt_decryptWrites, finishOk_k, decryptWrites_k, contentLength_toNat hmin]
      by_cases hj : s.len.toNat - 8 ≤ j
      · rw [if_pos hj, if_neg (Nat.not_lt.2 hj)]
      · rw [if_neg hj, if_pos (Nat.lt_of_not_le hj), decryptedByte, keystreamAt]
        split <;> rfl

/-- Settles O33: an `OK` outcome has at least 8 bytes before it, and the writes of the transform. -/
theorem decryptFollowsTheSourceSteps : Obligations.DecryptFollowsTheSourceSteps := by
  intro s t h hcode
  obtain ⟨hok, rfl⟩ := exec_code_zero h hcode
  exact contents_decryptWrites_eq_sourceDecrypt (len_of_decrypt_ok hok)

end Sys2Proof.Machine

/-! The header detector (spec/42_header_detect.md): the predicate by index, `DETECT` on either side of the capacity, and
the obligations of this family. -/

namespace Sys2Proof.Machine

/-- The predicate of rule R95, by index into the header constant. -/
theorem hasHeader_iff {s : State} :
    hasHeader s = true ↔ 8 ≤ s.len.toNat ∧ ∀ i < 8, byteAt s i = headerByte i := by
  simp only [hasHeader, Bool.and_eq_true, decide_eq_true_eq, List.all_eq_true, List.mem_range, beq_iff_eq]

/-- With `LEN` within the capacity, `DETECT` ends `OK` with the header test as its flag and writes nothing else. -/
theorem exec_detect_within {s : State} (hcap : s.len.toNat ≤ s.cfg.bufCap) :
    exec .detect s = .next (finishOk (hasHeader s) s) := by
  have hcap' : ¬ s.cfg.bufCap < s.len.toNat := Nat.not_lt.2 hcap
  have hout : commandOutcome .detect s = .ok := by rw [commandOutcome, if_neg hcap']
  rw [exec_of_ok hout, commandHdr_of_tested (by decide) hcap', commandWrites]

/-- A command that tests the length, with `LEN` above the capacity, ends `BAD_LENGTH` with flag 0 (rule R125). -/
theorem exec_of_tooLong {i : Instr} {s : State} (hi : i ≠ .derive) (h : s.cfg.bufCap < s.len.toNat) :
    exec i s = .next (raiseOutcome .badLength false s) := by
  have hout : commandOutcome i s = .badLength := commandOutcome_of_tooLong hi h
  rw [exec_of_error (by simp [hout]), hout, commandHdr_of_tooLong h]

/-! The `STATUS` words that `DETECT` leaves (rules R17, R96). -/

theorem completedStatus_ok (h : Bool) :
    completedStatus .ok h = if h then 0x00000006#32 else 0x00000002#32 := by
  cases h <;> decide

theorem completedStatus_badLength : completedStatus .badLength false = 0x00000602#32 := by decide

/-! The obligations. -/

/-- Settles O29: the predicate by index, with the 8 indices of the header written out one by one. -/
theorem detectorComparesTheFirstEightBytes : Obligations.DetectorComparesTheFirstEightBytes := by
  intro s
  rw [hasHeader_iff]
  refine and_congr_right fun _ => ⟨fun h => ?_, fun h i hi => ?_⟩
  · exact ⟨h 0 (by decide), h 1 (by decide), h 2 (by decide), h 3 (by decide), h 4 (by decide), h 5 (by decide),
      h 6 (by decide), h 7 (by decide)⟩
  · obtain ⟨h0, h1, h2, h3, h4, h5, h6, h7⟩ := h
    interval_cases i
    exacts [h0, h1, h2, h3, h4, h5, h6, h7]

/-- Settles O30: the two sides of the capacity, each with the `STATUS` word of its outcome. -/
theorem detectCompletes : Obligations.DetectCompletes := by
  refine fun s => ⟨fun hcap => ?_, fun hlong => ?_⟩
  · rw [exec_detect_within hcap, ← completedStatus_ok]
    rfl
  · rw [exec_of_tooLong (by decide) hlong, ← completedStatus_badLength]
    rfl

end Sys2Proof.Machine

/-! Encryption (spec/43_encrypt.md): when `ENCRYPT` ends `OK`, the ciphertext length without wrapping, the source's steps on
a sequence given by index, and the obligations of this family. -/

namespace Sys2Proof.Machine

/-! The outcome of `ENCRYPT`, case by case (rules R106 to R109). -/

/-- A command that tests the header and ends in an error, with `LEN` within the capacity, leaves the header test as its
flag (rules R23, R117). -/
theorem exec_of_error_within {i : Instr} {s : State} {x : ResultCode} (hi : i ≠ .derive)
    (hcap : s.len.toNat ≤ s.cfg.bufCap) (hout : commandOutcome i s = x) (hx : x ≠ .ok) :
    exec i s = .next (raiseOutcome x (hasHeader s) s) := by
  rw [exec_of_error (hout ▸ hx), hout, commandHdr_of_tested hi (Nat.not_lt.2 hcap)]

theorem commandOutcome_encrypt_of_header {s : State} (hcap : s.len.toNat ≤ s.cfg.bufCap) (hhdr : hasHeader s = true) :
    commandOutcome .encrypt s = .alreadyEncrypted := by
  rw [commandOutcome, if_neg (Nat.not_lt.2 hcap), if_pos hhdr]

/-- Without the header and with `LEN` within the capacity, only the length decides the outcome. -/
theorem commandOutcome_encrypt_of_plaintext {s : State} (hcap : s.len.toNat ≤ s.cfg.bufCap) (hhdr : hasHeader s = false) :
    commandOutcome .encrypt s =
      if 1 ≤ s.len.toNat ∧ s.len.toNat ≤ 7 then .shortPayload
      else if s.cfg.bufCap < s.len.toNat + 8 then .capacity else .ok := by
  rw [commandOutcome, if_neg (Nat.not_lt.2 hcap), if_neg (by simp [hhdr])]

/-- The plaintext lengths that `ENCRYPT` transforms: those of rule R108, with room for the header (rule R109). -/
theorem commandOutcome_encrypt_eq_ok {s : State} :
    commandOutcome .encrypt s = .ok ↔
      hasHeader s = false ∧ (s.len.toNat = 0 ∨ 8 ≤ s.len.toNat) ∧ s.len.toNat + 8 ≤ s.cfg.bufCap := by
  constructor
  · intro hok
    have hroom := len_of_encrypt_ok hok
    have hcap : s.len.toNat ≤ s.cfg.bufCap := by omega
    have hhdr : hasHeader s = false := Bool.of_not_eq_true fun hhdr => by
      simp [commandOutcome_encrypt_of_header hcap hhdr] at hok
    have hlen : ¬ (1 ≤ s.len.toNat ∧ s.len.toNat ≤ 7) := fun hshort => by
      simp [commandOutcome_encrypt_of_plaintext hcap hhdr, hshort] at hok
    exact ⟨hhdr, by omega, hroom⟩
  · rintro ⟨hhdr, hlen, hroom⟩
    rw [commandOutcome_encrypt_of_plaintext (by omega) hhdr, if_neg (by omega), if_neg (by omega)]

/-- With room for the header inside the capacity, `LEN + 8` does not wrap (rules R8, R15). -/
theorem ciphertextLength_toNat {s : State} (hwf : s.cfg.wf) (hroom : s.len.toNat + 8 ≤ s.cfg.bufCap) :
    (s.len + 8#32).toNat = s.len.toNat + 8 := by
  have hmax := hwf.2
  exact BitVec.toNat_add_of_lt (by simp only [BitVec.reduceToNat]; omega)

/-! The source's steps on a sequence given by index. -/

theorem length_header : header.length = 8 := rfl

theorem getElem_header {i : Nat} (hi : i < header.length) : header[i] = headerByte i :=
  (List.getD_eq_getElem header 0#8 hi).symm

/-- The first 8 bytes moved to the end and the header put in front, index by index (rule R104 steps 3 and 4): from index 8
on the bytes stand where they stood before. -/
theorem header_append_moveFirst8ToEnd_map_range {l : Nat} (hl : l = 0 ∨ 8 ≤ l) (f : Nat → Byte) :
    header ++ moveFirst8ToEnd ((List.range l).map f) =
      (List.range (l + 8)).map fun j => if j < 8 then headerByte j else if j < l then f j else f (j - l) := by
  have hlength : (moveFirst8ToEnd ((List.range l).map f)).length = l := by
    simp only [moveFirst8ToEnd, List.length_append, List.length_drop, List.length_take, List.length_map, List.length_range]
    omega
  refine List.ext_getElem (by simp [hlength, length_header, Nat.add_comm]) fun j hj _ => ?_
  rw [List.length_append, hlength, length_header] at hj
  by_cases hhead : j < 8
  · simp [List.getElem_append, length_header, hhead, getElem_header]
  · have hback : 8 + (j - 8) = j := by omega
    have hrest : j - 8 < l - 8 ↔ j < l := by omega
    have htail : j - 8 - (l - 8) = j - l := by omega
    simp [List.getElem_append, length_header, hhead, moveFirst8ToEnd, hback, hrest, htail]

/-- The sequence after the encrypt transform (rule R106), when its length does not wrap. -/
theorem contents_encryptWrites {s : State} (hlen : (s.len + 8#32).toNat = s.len.toNat + 8) :
    contents (encryptWrites s) =
      (List.range (s.len.toNat + 8)).map (encryptedByte s s.len.toNat (deriveKey s.len)) := by
  rw [contents, encryptWrites_len, hlen]
  refine List.map_congr_left fun a ha => ?_
  rw [byteAt_encryptWrites, if_pos (List.mem_range.1 ha)]

/-- On 0 bytes or at least 8 the encrypt transform is the source's `Encrypt` (rules R104, R106). -/
theorem contents_encryptWrites_eq_sourceEncrypt {s : State} (hl : s.len.toNat = 0 ∨ 8 ≤ s.len.toNat)
    (hlen : (s.len + 8#32).toNat = s.len.toNat + 8) :
    contents (encryptWrites s) = sourceEncrypt (contents s) := by
  have hkey : BitVec.ofNat 32 (contents s).length = s.len := by simp [contents]
  rw [contents_encryptWrites hlen, sourceEncrypt, hkey, contents, xorCycled_map_range,
    header_append_moveFirst8ToEnd_map_range hl]
  rfl

/-! The obligations. -/

/-- Settles O34: one outcome for each clause, and the transform's bytes with a length that does not wrap. -/
theorem encryptCompletes : Obligations.EncryptCompletes := by
  refine fun s hwf hcap => ⟨fun hhdr => ?_, fun hhdr hlow hhigh => ?_, fun hhdr hlen hfull => ?_, fun hhdr hlen hroom => ?_⟩
  · have hout := commandOutcome_encrypt_of_header hcap hhdr
    rw [exec_of_error_within (by decide) hcap hout (by decide), hhdr]
    rfl
  · have hout : commandOutcome .encrypt s = .shortPayload := by
      rw [commandOutcome_encrypt_of_plaintext hcap hhdr, if_pos ⟨hlow, hhigh⟩]
    rw [exec_of_error_within (by decide) hcap hout (by decide), hhdr]
    rfl
  · have hout : commandOutcome .encrypt s = .capacity := by
      rw [commandOutcome_encrypt_of_plaintext hcap hhdr, if_neg (by omega), if_pos hfull]
    rw [exec_of_error_within (by decide) hcap hout (by decide), hhdr]
    rfl
  · have hout : commandOutcome .encrypt s = .ok := commandOutcome_encrypt_eq_ok.2 ⟨hhdr, hlen, hroom⟩
    have hflag : commandHdr .encrypt s = false := by rw [commandHdr_of_tested (by decide) (Nat.not_lt.2 hcap), hhdr]
    refine ⟨_, exec_of_ok hout, ?_, ciphertextLength_toNat hwf hroom, rfl, fun j => ?_⟩
    · rw [hflag]
      rfl
    · rw [byteAt_finishOk, commandWrites, byteAt_encryptWrites, finishOk_k, encryptWrites_k]
      by_cases hj : j < s.len.toNat + 8
      · rw [if_pos hj, if_pos hj]
        rfl
      · rw [if_neg hj, if_neg hj, if_neg (by omega), if_neg (by omega)]

/-- Settles O35: an `OK` outcome had a plaintext of 0 bytes or at least 8, with room for the header. -/
theorem encryptFollowsTheSourceSteps : Obligations.EncryptFollowsTheSourceSteps := by
  intro s t hwf h hcode
  obtain ⟨hok, rfl⟩ := exec_code_zero h hcode
  obtain ⟨-, hl, hroom⟩ := commandOutcome_encrypt_eq_ok.1 hok
  exact contents_encryptWrites_eq_sourceEncrypt hl (ciphertextLength_toNat hwf hroom)

end Sys2Proof.Machine

/-! Outcomes (spec/60_exceptions.md): what the issue of any word does in one case split, the `STATUS` word of an outcome as a
number, and the obligations of this family. -/

namespace Sys2Proof.Machine

/-! The issue of a word. -/

/-- Every word completes: a command's with the command's result, any other with `ILLEGAL_COMMAND` (rules R114, R126). -/
theorem issue_result_cases (w : Word) (s : State) :
    (∃ i, w = encode i ∧ issue w s = .next (commandResult i s)) ∨
      ((∀ i, w ≠ encode i) ∧ issue w s = .next (raiseOutcome .illegalCommand false s)) := by
  obtain ⟨i, hi, hissue⟩ | ⟨⟨e, he⟩, hissue⟩ := issue_cases w s
  · exact .inl ⟨i, decode_eq_ok hi, hissue.trans (exec_eq i s)⟩
  · refine .inr ⟨?_, hissue⟩
    rintro i rfl
    obtain ⟨-, -, hdecode⟩ := commandWord_statement i
    cases hdecode.symm.trans he

/-- The number of a command's word is its operation code (rule R55). -/
@[simp] theorem encode_toNat (i : Instr) : (encode i).toNat = (opcode i).toNat := by
  cases i <;> rfl

/-- A word that encodes no command is 0 or above 4 (rule R53). -/
theorem toNat_of_no_command {w : Word} (hw : ∀ i, w ≠ encode i) : w.toNat = 0 ∨ 4 < w.toNat := by
  have hderive : w ≠ 1#32 := hw .derive
  have hdecrypt : w ≠ 2#32 := hw .decrypt
  have hdetect : w ≠ 3#32 := hw .detect
  have hencrypt : w ≠ 4#32 := hw .encrypt
  bv_omega

/-! The `STATUS` word of an outcome. -/

/-- `STATUS = 2 + 0x100 * code + 4 * h` (rule R117). -/
theorem completedStatus_eq_ofNat (x : ResultCode) (h : Bool) :
    completedStatus x h = BitVec.ofNat 32 (2 + 0x100 * x.number.toNat + 4 * h.toNat) := by
  cases x <;> cases h <;> rfl

/-- A raised outcome is the state before with only `STATUS` rewritten, in terms of the fields it then shows (rule R117). -/
theorem raiseOutcome_eq_status_fields {x : ResultCode} {h : Bool} {s t : State} (ht : t = raiseOutcome x h s) :
    t = { s with
      status := BitVec.ofNat 32 (2 + 0x100 * (statusCode t.status).toNat + 4 * (statusHdr t.status).toNat) } := by
  subst ht
  rw [raiseOutcome_status, statusCode_completed, statusHdr_completed, ← completedStatus_eq_ofNat]
  rfl

/-! The obligations. -/

/-- Settles O19: a code other than 0 was raised, by an illegal word or by a command whose outcome is not `OK`. -/
theorem errorsChangeOnlyStatus : Obligations.ErrorsChangeOnlyStatus := by
  intro w s t h hcode
  obtain ⟨i, -, hissue⟩ | ⟨-, hissue⟩ := issue_result_cases w s
  · cases hissue.symm.trans h
    rw [commandResult_status, statusCode_completed] at hcode
    have herror : commandOutcome i s ≠ .ok := mt number_eq_zero.2 hcode
    exact raiseOutcome_eq_status_fields (exec_eq_next.1 (exec_of_error herror)).symm
  · cases hissue.symm.trans h
    exact raiseOutcome_eq_status_fields rfl

/-- Settles O20: `commandOutcome` checks in the order of rule R128, and each command meets only its own lines of it. -/
theorem outcomesInPriorityOrder : Obligations.OutcomesInPriorityOrder := by
  intro w s t h
  obtain ⟨i, rfl, hissue⟩ | ⟨hw, hissue⟩ := issue_result_cases w s
  · cases hissue.symm.trans h
    rw [commandResult_status, statusCode_completed, encode_toNat]
    cases i with
    | derive => rfl
    | decrypt | detect | encrypt =>
      simp only [commandOutcome, apply_ite ResultCode.number]
      simp [opcode, ResultCode.number]
  · cases hissue.symm.trans h
    rw [if_pos (toNat_of_no_command hw)]
    exact statusCode_completed _ _

/-- Settles O22: both kinds of answer end with `STATUS` rewritten, which shows `DONE` and not `BUSY`. -/
theorem commandsAlwaysComplete : Obligations.CommandsAlwaysComplete := by
  refine ⟨fun i s => ⟨_, exec_eq i s, statusDone_completed _ _, statusBusy_completed _ _⟩, fun w s => ?_⟩
  obtain ⟨i, -, hissue⟩ | ⟨-, hissue⟩ := issue_result_cases w s
  · exact ⟨_, hissue, statusDone_completed _ _, statusBusy_completed _ _⟩
  · exact ⟨_, hissue, statusDone_completed _ _, statusBusy_completed _ _⟩

/-- Settles O40: the commands that test the length share one lemma, and `DERIVE` completes from every state. -/
theorem lengthAboveCapacityIsReportedFirst : Obligations.LengthAboveCapacityIsReportedFirst := by
  intro s hlong
  have hbad {i : Instr} (hi : i ≠ .derive) : exec i s = .next { s with status := 0x00000602#32 } := by
    rw [exec_of_tooLong hi hlong, ← completedStatus_badLength]
    rfl
  exact ⟨hbad (by decide), hbad (by decide), hbad (by decide), deriveCompletes s⟩

end Sys2Proof.Machine

/-! Decode and encode (spec/30_encoding.md sections 3 to 6): the words of each answer of the decoder as numbers, the write
to `CMD` of a word that decodes, and the obligations on command words. -/

namespace Sys2Proof.Machine

theorem decode_encode (i : Instr) : decode (encode i) = .ok i := by
  obtain ⟨-, -, hdecode⟩ := commandWord_statement i
  exact hdecode

/-- In the numbering of the opcode table, 32 bits hold a whole word. -/
@[simp] theorem tableWord_toNat (w : Word) : tableWord 32 w.toNat = w := by
  rw [tableWord, Nat.mod_eq_of_lt w.isLt, BitVec.ofNat_toNat, BitVec.setWidth_eq]

/-- The upper field is what a word holds from 256 on (rule R52). -/
theorem zeroField_eq_zero_iff {w : Word} : zeroField w = 0#24 ↔ w.toNat < 256 := by
  simp only [← BitVec.toNat_inj, zeroField_toNat, BitVec.reduceToNat]
  omega

/-- The upper field is tested first, so it alone decides this rejection. -/
theorem decode_eq_upperBitsSet {w : Word} : decode w = .error .upperBitsSet ↔ 256 ≤ w.toNat := by
  rw [← not_lt, ← zeroField_eq_zero_iff]
  unfold decode
  split_ifs <;> simp_all

/-- A word with an empty upper field is rejected if no command has it. -/
theorem decode_eq_unknownOp {w : Word} :
    decode w = .error .unknownOp ↔ w.toNat < 256 ∧ ∀ i, w ≠ encode i := by
  constructor
  · intro h
    refine ⟨not_le.1 fun hupper => ?_, ?_⟩
    · cases h.symm.trans (decode_eq_upperBitsSet.2 hupper)
    · rintro i rfl
      cases h.symm.trans (decode_encode i)
  · rintro ⟨hlow, hnone⟩
    cases h : decode w with
    | ok i => exact absurd (decode_eq_ok h) (hnone i)
    | error e =>
      cases e with
      | unknownOp => rfl
      | upperBitsSet => exact absurd (decode_eq_upperBitsSet.1 h) (not_le.2 hlow)

/-- The words of no command as numbers (rule R53). -/
theorem no_command_iff_toNat {w : Word} : (∀ i, w ≠ encode i) ↔ w.toNat = 0 ∨ 4 < w.toNat := by
  refine ⟨toNat_of_no_command, ?_⟩
  rintro hrange i rfl
  rw [encode_toNat] at hrange
  cases i <;> simp [opcode] at hrange

/-- Settles O3: the decoder undoes the encoder, and each rejection is a range of numbers. -/
theorem decodeEncodeAgree : Obligations.DecodeEncodeAgree := by
  refine ⟨fun i _ => ⟨decode_encode i, ?_⟩, fun w i => decode_eq_ok, fun w => decode_eq_upperBitsSet, fun w => ?_⟩
  · rw [decodeTableWord, tableWord_toNat, decode_encode]
    rfl
  · rw [decode_eq_unknownOp, no_command_iff_toNat]
    omega

/-- Settles O1: the four words are the encodings of the commands, the others lie in the ranges of rejected numbers. -/
theorem decodeReadsTheTableWords : Obligations.DecodeReadsTheTableWords := by
  obtain ⟨-, -, hupper, hop⟩ := decodeEncodeAgree
  exact ⟨decode_encode .derive, decode_encode .decrypt, decode_encode .detect, decode_encode .encrypt,
    (hop _).2 (by decide), (hop _).2 (by decide), (hupper _).2 (by decide), (hupper _).2 (by decide)⟩

theorem issue_of_decode {w : Word} {i : Instr} (h : decode w = .ok i) (s : State) : issue w s = exec i s := by
  rw [issue, h]

/-- Settles O5: a write to `CMD` is an issue, and the issue runs what the decoder reads. -/
theorem stepRunsTheDecodedCommand : Obligations.StepRunsTheDecodedCommand := by
  intro s w i rest hhost hidle hdecode _
  rw [step_cmd hhost hidle, issue_of_decode hdecode]
  rfl

/-- The mask of the model's placing clears `BUSY`. -/
theorem statusBusy_clearBusy (w : Word) : statusBusy (w &&& 0xFFFFFFFE#32) = false := by
  simp [statusBusy]

/-- Settles O6: the placed access is a write of the command's word to `CMD` of an idle block. -/
theorem placedCommandRunsNext : Obligations.PlacedCommandRunsNext := by
  intro s i
  have hhost : (s.withFetchWord 32 (encode i).toNat).host = .regWrite 0x00 (encode i) :: s.host := by
    rw [State.withFetchWord, tableWord_toNat]
    rfl
  rw [step_cmd hhost (statusBusy_clearBusy s.status), issue_of_decode (decode_encode i)]
  rfl

end Sys2Proof.Machine

/-! The invariant (spec/10_state.md sections 2 and 11, spec/60_exceptions.md section 1): what a command and a host access
keep of it, what any issued word leaves in `STATUS`, and the obligations on both. -/

namespace Sys2Proof.Machine

/-! `STATUS` after an issued word. -/

theorem completedStatus_ok_mem_legalStatus (h : Bool) : completedStatus .ok h ∈ legalStatus := by
  cases h <;> decide

/-- An issued word leaves `STATUS` as the end of a command writes it (rules R117, R126). -/
theorem issue_status {w : Word} {s t : State} (h : issue w s = .next t) :
    ∃ x hdr, t.status = completedStatus x hdr := by
  obtain ⟨i, -, hissue⟩ | ⟨-, hissue⟩ := issue_result_cases w s <;> cases hissue.symm.trans h
  · exact ⟨_, _, commandResult_status i s⟩
  · exact ⟨_, _, raiseOutcome_status _ _ s⟩

theorem number_toNat_le (x : ResultCode) : x.number.toNat ≤ 7 := by
  cases x <;> decide

/-- Settles O18: the fields of the word that the end of a command writes. -/
theorem commandsRewriteTheWholeStatus : Obligations.CommandsRewriteTheWholeStatus := by
  intro w s t h
  obtain ⟨x, hdr, hstatus⟩ := issue_status h
  rw [hstatus, statusBusy_completed, statusDone_completed, statusCode_completed, statusHdr_completed]
  exact ⟨rfl, rfl, number_toNat_le x, completedStatus_eq_ofNat x hdr⟩

/-! What keeps the invariant. -/

/-- The invariant speaks of the parameters, the memory, `STATUS` and the key only. -/
theorem State.Inv.congr {s t : State} (hs : s.Inv) (hcfg : t.cfg = s.cfg) (hbuf : t.buf = s.buf)
    (hstatus : t.status = s.status) (hk : t.k = s.k) : t.Inv where
  cfg := hcfg ▸ hs.cfg
  mem := hbuf ▸ hs.mem
  range := hbuf ▸ hcfg ▸ hs.range
  status := hstatus ▸ hs.status
  key := hk ▸ hs.key

/-- A byte written below the capacity keeps the invariant (rule R42). -/
theorem State.Inv.writeByte {s : State} (hs : s.Inv) {a : Nat} (ha : a < s.cfg.bufCap) (v : Byte) :
    (s.writeByte a v).Inv where
  cfg := hs.cfg
  mem := write_wf hs.mem a v
  range := write_range hs.range ha v
  status := hs.status
  key := hs.key

/-- Bytes stored inside the capacity keep the invariant (rule R45). -/
theorem State.Inv.storeBytes {s : State} (hs : s.Inv) {a : Nat} {vs : List Byte} (ha : a + vs.length ≤ s.cfg.bufCap) :
    (s.storeBytes a vs).Inv where
  cfg := hs.cfg
  mem := store_wf hs.mem a vs
  range := store_range hs.range a vs ha
  status := hs.status
  key := hs.key

theorem State.Inv.setKey {s : State} (hs : s.Inv) (n : Word) : (s.setKey (deriveKey n)).Inv where
  cfg := hs.cfg
  mem := hs.mem
  range := hs.range
  status := hs.status
  key := ⟨n, rfl⟩

theorem State.Inv.setLen {s : State} (hs : s.Inv) (v : Word) : (s.setLen v).Inv := hs.congr rfl rfl rfl rfl

theorem State.Inv.completeWith {s : State} (hs : s.Inv) {x : ResultCode} {h : Bool}
    (hlegal : completedStatus x h ∈ legalStatus) : (completeWith x h s).Inv where
  cfg := hs.cfg
  mem := hs.mem
  range := hs.range
  status := hlegal
  key := hs.key

/-- The plaintext lies where the ciphertext lay, inside the capacity. -/
theorem State.Inv.decryptWrites {s : State} (hs : s.Inv) (hmin : 8 ≤ s.len.toNat) (hcap : s.len.toNat ≤ s.cfg.bufCap) :
    (decryptWrites s).Inv := by
  refine ((hs.storeBytes ?_).setLen _).setKey _
  rw [List.length_map, List.length_range, contentLength_toNat hmin]
  omega

/-- The ciphertext lies inside the capacity (rule R109). -/
theorem State.Inv.encryptWrites {s : State} (hs : s.Inv) (hroom : s.len.toNat + 8 ≤ s.cfg.bufCap) :
    (encryptWrites s).Inv := by
  refine ((hs.storeBytes ?_).setLen _).setKey _
  rw [List.length_map, List.length_range, Nat.zero_add]
  exact hroom

/-- Every command keeps the invariant. -/
theorem exec_keeps_inv {i : Instr} {s t : State} (hs : s.Inv) (h : exec i s = .next t) : t.Inv := by
  have hok := completedStatus_ok_mem_legalStatus
  obtain ⟨x, hdr, hexec, hlegal, -⟩ | ⟨-, hexec⟩ | ⟨-, hexec⟩ | ⟨-, hcap, hhdr, -, hexec⟩ | ⟨-, hroom, -, -, hexec⟩ :=
    exec_cases i s <;> cases hexec.symm.trans h
  · exact hs.completeWith hlegal
  · exact (hs.setKey s.n).completeWith (hok _)
  · exact hs.completeWith (hok _)
  · exact (hs.decryptWrites (len_of_hasHeader hhdr) hcap).completeWith (hok _)
  · exact (hs.encryptWrites hroom).completeWith (hok _)

/-- Every word written to `CMD` keeps the invariant. -/
theorem issue_keeps_inv {w : Word} {s t : State} (hs : s.Inv) (h : issue w s = .next t) : t.Inv := by
  obtain ⟨i, -, hissue⟩ | ⟨-, hissue⟩ := issue_cases w s
  · exact exec_keeps_inv hs (hissue ▸ h)
  · cases hissue.symm.trans h
    exact hs.completeWith (by decide)

/-- Every access of the host keeps the invariant. -/
theorem hostAccess_keeps_inv {a : HostAccess} {s t : State} (hs : s.Inv) (h : hostAccess a s = .next t) : t.Inv := by
  obtain ⟨r, rfl⟩ | rfl | ⟨v, rfl⟩ | ⟨v, rfl⟩ | ⟨x, v, hx, -, rfl⟩ | ⟨w, -, -, hissue⟩ := hostAccess_cases h
  · exact hs.congr rfl rfl rfl rfl
  · exact hs
  · exact hs.setLen v
  · exact hs.congr rfl rfl rfl rfl
  · exact hs.writeByte hx v
  · exact issue_keeps_inv hs hissue

/-- Settles O17: a step waits, or is one access of the host. -/
theorem stepKeepsInvariant : Obligations.StepKeepsInvariant := by
  intro s t hs h
  obtain ⟨-, rfl⟩ | ⟨a, rest, -, ha⟩ := step_cases h
  · exact hs
  · have hs' : (s.setHost rest).Inv := hs.congr rfl rfl rfl rfl
    exact hostAccess_keeps_inv hs' ha

theorem resetWith_inv {c : Config} (hc : c.wf) : (State.resetWith c).Inv where
  cfg := hc
  mem := resetWith_wf c
  range := by simp
  status := by simp [legalStatus]
  key := ⟨0#32, deriveKey_zero.symm⟩

/-- Settles O16: no byte is written after reset, and the zero key is the key of 0. -/
theorem resetMeetsInvariant : Obligations.ResetMeetsInvariant :=
  ⟨fun _ => resetWith_inv, resetWith_inv (by decide)⟩

end Sys2Proof.Machine

/-! The host's accesses (spec/10_state.md section 10, spec/20_memory.md sections 3 and 4, spec/70_reset_and_hazards.md
section 3): the register map both ways, the one access of a busy block, which accesses complete, what each kind leaves
unchanged, and the obligations on single accesses. -/

namespace Sys2Proof.Machine

/-! The register map. -/

theorem offset_injective : Function.Injective Register.offset := fun r r' h =>
  Option.some_injective _ (by rw [← registerAt_offset r, h, registerAt_offset])

/-- The offsets of the map are the multiples of 4 up to 0x1C (rules R27, R39). -/
theorem exists_offset_iff {off : Nat} : (∃ r : Register, off = r.offset) ↔ off % 4 = 0 ∧ off ≤ 0x1C := by
  constructor
  · rintro ⟨r, rfl⟩
    cases r <;> decide
  · intro h
    obtain ⟨r, hr⟩ := Option.ne_none_iff_exists'.1 (mt registerAt_eq_none.1 (not_not.2 h))
    exact ⟨r, registerAt_eq_some.1 hr⟩

/-! The read of `STATUS`, on an idle block and on a busy one (rules R147, R148). -/

theorem hostAccess_statusRead (s : State) :
    hostAccess (.regRead 0x04) s = .next (s.logRead (.register 0x04 (statusRead s))) := by
  rw [hostAccess.eq_def, if_neg (by simp [Register.offset])]
  rfl

/-- A busy block shows `BUSY`, whatever it shows in the free fields. -/
theorem statusBusy_statusRead {s : State} (hb : statusBusy s.status = true) : statusBusy (statusRead s) = true := by
  rw [statusRead, if_pos hb]
  simp [statusBusy]

/-- A busy block shows the reserved bits as 0. -/
theorem statusRead_reserved {s : State} (hb : statusBusy s.status = true) : statusRead s &&& 0xFFFFF0F8#32 = 0#32 := by
  rw [statusRead, if_pos hb]
  simp [BitVec.and_or_distrib_right, BitVec.and_assoc]

/-! What an access that completes leaves unchanged. -/

/-- A read changes nothing but the log (rule R41). -/
theorem hostAccess_read_inv {a : HostAccess} {s t : State} (ha : (∃ off, a = .regRead off) ∨ ∃ x, a = .bufRead x)
    (h : hostAccess a s = .next t) : ∃ r, t = s.logRead r := by
  unfold hostAccess at h
  split at h
  · cases h
  · obtain ⟨off, rfl⟩ | ⟨x, rfl⟩ := ha <;> simp only at h <;> split at h <;> cases h <;> exact ⟨_, rfl⟩

/-- A byte written by the host changes nothing but the memory (rule R41). -/
theorem hostAccess_bufWrite_inv {x : Nat} {v : Byte} {s t : State} (h : hostAccess (.bufWrite x v) s = .next t) :
    t = s.writeByte x v := by
  unfold hostAccess at h
  split at h
  · cases h
  · simp only at h
    split at h <;> cases h
    rfl

/-- A write at a register's offset that completes is the write of that register. -/
theorem hostAccess_regWrite_eq {r : Register} {v : Word} {s t : State} (h : hostAccess (.regWrite r.offset v) s = .next t) :
    writeRegister r v s = .next t := by
  obtain ⟨-, r', hr, hw⟩ := hostAccess_regWrite_inv h
  exact offset_injective hr ▸ hw

@[simp] theorem commandWrites_cfg (i : Instr) (s : State) : (commandWrites i s).cfg = s.cfg := by
  cases i <;> rfl

@[simp] theorem commandWrites_host (i : Instr) (s : State) : (commandWrites i s).host = s.host := by
  cases i <;> rfl

@[simp] theorem commandWrites_reads (i : Instr) (s : State) : (commandWrites i s).reads = s.reads := by
  cases i <;> rfl

/-- No command touches `N`, the parameters or the host's side (rules R14, R30). -/
theorem commandResult_sameHostSide (i : Instr) (s : State) : SameHostSide s (commandResult i s) where
  cfg := by simp only [commandResult, completeWith_cfg, apply_ite State.cfg, commandWrites_cfg, ite_self]
  n := commandResult_n i s
  host := by simp only [commandResult, completeWith_host, apply_ite State.host, commandWrites_host, ite_self]
  reads := by simp only [commandResult, completeWith_reads, apply_ite State.reads, commandWrites_reads, ite_self]

theorem issue_sameHostSide {w : Word} {s t : State} (h : issue w s = .next t) : SameHostSide s t := by
  obtain ⟨i, -, hissue⟩ | ⟨-, hissue⟩ := issue_result_cases w s <;> cases hissue.symm.trans h
  · exact commandResult_sameHostSide i s
  · exact ⟨rfl, rfl, rfl, rfl⟩

/-- The capacity is constant (rule R30), and an access adds none to those still to come. -/
theorem hostAccess_cfg_host {a : HostAccess} {s t : State} (h : hostAccess a s = .next t) :
    t.cfg = s.cfg ∧ t.host = s.host := by
  obtain ⟨r, rfl⟩ | rfl | ⟨v, rfl⟩ | ⟨v, rfl⟩ | ⟨x, v, -, -, rfl⟩ | ⟨w, -, -, hissue⟩ := hostAccess_cases h
  case inr.inr.inr.inr.inr => exact ⟨(issue_sameHostSide hissue).cfg, (issue_sameHostSide hissue).host⟩
  all_goals exact ⟨rfl, rfl⟩

/-! Which accesses complete. -/

/-- Every word completes, so every register write does (rules R20, R28, R114). -/
theorem writeRegister_completes (r : Register) (v : Word) (s : State) : ∃ t, writeRegister r v s = .next t := by
  cases r with
  | cmd =>
    obtain ⟨i, -, hissue⟩ | ⟨-, hissue⟩ := issue_result_cases v s
    exacts [⟨_, hissue⟩, ⟨_, hissue⟩]
  | status | len | n | k0 | k1 | k2 | k3 => exact ⟨_, rfl⟩

theorem hostAccess_completes_of_idle {a : HostAccess} {s : State} (hb : statusBusy s.status = false)
    (ha : a.wellFormed s.cfg.bufCap = true) : ∃ t, hostAccess a s = .next t := by
  cases a with
  | regRead off =>
    obtain ⟨r, rfl⟩ := exists_offset_iff.2 (by simpa [HostAccess.wellFormed] using ha)
    exact ⟨_, hostAccess_regRead hb⟩
  | regWrite off v =>
    obtain ⟨r, rfl⟩ := exists_offset_iff.2 (by simpa [HostAccess.wellFormed] using ha)
    rw [hostAccess_regWrite hb]
    exact writeRegister_completes r v s
  | bufRead x => exact ⟨_, (hostAccess_bufRead hb x).trans (if_pos (of_decide_eq_true ha))⟩
  | bufWrite x v => exact ⟨_, (hostAccess_bufWrite hb x v).trans (if_pos (of_decide_eq_true ha))⟩
  | otherWidth sp off width => exact absurd ha (by simp [HostAccess.wellFormed])

theorem hostAccess_refused_of_idle {a : HostAccess} {s : State} (hb : statusBusy s.status = false)
    (ha : a.wellFormed s.cfg.bufCap ≠ true) : ∃ r, hostAccess a s = .refused r := by
  cases a with
  | regRead off => exact ⟨_, (hostAccess_badOffset hb (by simpa [HostAccess.wellFormed] using ha) 0#32).1⟩
  | regWrite off v => exact ⟨_, (hostAccess_badOffset hb (by simpa [HostAccess.wellFormed] using ha) v).2⟩
  | bufRead x => exact ⟨_, (hostAccess_bufRead hb x).trans (if_neg (by simpa [HostAccess.wellFormed] using ha))⟩
  | bufWrite x v => exact ⟨_, (hostAccess_bufWrite hb x v).trans (if_neg (by simpa [HostAccess.wellFormed] using ha))⟩
  | otherWidth sp off width => exact ⟨_, hostAccess_otherWidth hb sp off width⟩

/-- An access completes if a conforming host may make it (rules R28, R42, R148). -/
theorem hostAccess_of_conforming {a : HostAccess} {s : State} (ha : Conforming s a) : ∃ t, hostAccess a s = .next t := by
  obtain ⟨hform, honly⟩ := ha
  cases hb : statusBusy s.status with
  | false => exact hostAccess_completes_of_idle hb hform
  | true => exact honly hb ▸ ⟨_, hostAccess_statusRead s⟩

/-- Every other access is refused. -/
theorem hostAccess_of_not_conforming {a : HostAccess} {s : State} (ha : ¬ Conforming s a) :
    ∃ r, hostAccess a s = .refused r := by
  cases hb : statusBusy s.status with
  | false => exact hostAccess_refused_of_idle hb fun hform => ha ⟨hform, by simp [hb]⟩
  | true =>
    refine ⟨_, hostAccess_busy hb fun hread => ha ?_⟩
    subst hread
    exact ⟨by simp [HostAccess.wellFormed], fun _ => rfl⟩

/-! The obligations on one access. -/

/-- A read at a register's offset on an idle block gives the register. -/
theorem step_regRead {s : State} {r : Register} {rest : List HostAccess} (h : s.host = .regRead r.offset :: rest)
    (hb : statusBusy s.status = false) :
    step s = .next { s with host := rest, reads := .register r.offset (readRegister r s) :: s.reads } := by
  rw [step_access h, hostAccess_regRead (s := s.setHost rest) hb]
  cases r <;> rfl

/-- Settles O7: `readRegister`, at the register whose offset it is. -/
theorem registerReadsGiveTheRegister : Obligations.RegisterReadsGiveTheRegister := by
  intro s off rest hhost hb halign hmax
  obtain ⟨r, rfl⟩ := exists_offset_iff.2 ⟨halign, hmax⟩
  have hread {r' : Register} {v : Word} (hv : readRegister r' s = v) (hr : r.offset = r'.offset) : readRegister r s = v :=
    offset_injective hr ▸ hv
  exact ⟨_, step_regRead hhost hb, hread (r' := .cmd) rfl, hread (r' := .status) (statusRead_idle hb),
    hread (r' := .len) rfl, hread (r' := .n) rfl, hread (r' := .k0) rfl, hread (r' := .k1) rfl, hread (r' := .k2) rfl,
    hread (r' := .k3) rfl⟩

/-- Settles O8: each kind of access that has no effect, by its own rule. -/
theorem registerAccessRules : Obligations.RegisterAccessRules := by
  refine fun s rest => ⟨fun hb => ⟨fun off v hhost hoff => ?_, fun hhost => ?_, fun off v hoff hhost => ?_,
    fun sp off width hhost => ?_⟩, fun hb a hhost ha => ?_⟩
  · obtain rfl | rfl | rfl | rfl | rfl := hoff
    exacts [step_regWrite (r := .status) hhost hb, step_regWrite (r := .k0) hhost hb, step_regWrite (r := .k1) hhost hb,
      step_regWrite (r := .k2) hhost hb, step_regWrite (r := .k3) hhost hb]
  · exact step_regRead (r := .cmd) hhost hb
  · obtain ⟨hread, hwrite⟩ := hostAccess_badOffset (s := s.setHost rest) hb hoff v
    obtain hhost | hhost := hhost
    exacts [(step_access hhost).trans hread, (step_access hhost).trans hwrite]
  · exact (step_access hhost).trans (hostAccess_otherWidth (s := s.setHost rest) hb sp off width)
  · exact (step_access hhost).trans (hostAccess_busy (s := s.setHost rest) hb ha)

/-- Settles O9: the two registers that a host write stores to. -/
theorem lenAndNStoreAnyValue : Obligations.LenAndNStoreAnyValue := fun _ _ _ hb =>
  ⟨fun hhost => step_regWrite (r := .len) hhost hb, fun hhost => step_regWrite (r := .n) hhost hb⟩

/-- A byte write inside the capacity of an idle block happens. -/
theorem step_bufWrite {s : State} {a : Nat} {v : Byte} {rest : List HostAccess} (h : s.host = .bufWrite a v :: rest)
    (hb : statusBusy s.status = false) (ha : a < s.cfg.bufCap) : step s = .next ((s.setHost rest).writeByte a v) := by
  rw [step_access h, hostAccess_bufWrite (s := s.setHost rest) hb]
  exact if_pos ha

/-- Settles O10: a byte access on either side of the capacity. -/
theorem bufferAccesses : Obligations.BufferAccesses := by
  intro s a v rest hb
  have hread := hostAccess_bufRead (s := s.setHost rest) hb a
  have hwrite := hostAccess_bufWrite (s := s.setHost rest) hb a v
  refine ⟨fun hhost ha => ?_, fun hhost ha => ?_, fun hhost ha => ?_⟩
  · refine ⟨_, step_bufWrite hhost hb ha, ?_, fun x hx => ?_, rfl⟩
    · rw [byteAt_writeByte, if_pos rfl]
    · rw [byteAt_writeByte, if_neg hx, byteAt_setHost]
  · exact ((step_access hhost).trans hread).trans (if_pos ha)
  · obtain hhost | hhost := hhost
    exacts [((step_access hhost).trans hwrite).trans (if_neg (Nat.not_lt.2 ha)),
      ((step_access hhost).trans hread).trans (if_neg (Nat.not_lt.2 ha))]

/-- Settles O11: a read of `STATUS` goes through on every block, and shows what a busy one leaves free under a mask. -/
theorem busyBlockAnswersOnlyStatusReads : Obligations.BusyBlockAnswersOnlyStatusReads := by
  refine fun s a rest hhost hb => ⟨fun ha => ?_, ?_⟩
  · exact (step_access hhost).trans (hostAccess_busy (s := s.setHost rest) hb ha)
  · rintro rfl
    exact ⟨_, (step_access hhost).trans (hostAccess_statusRead _), statusBusy_statusRead (s := s.setHost rest) hb,
      statusRead_reserved (s := s.setHost rest) hb⟩

/-- Settles O12: whether an access conforms depends on nothing that taking it from the host's list changes. -/
theorem stepStopsExactlyOnNonConformingAccess : Obligations.StepStopsExactlyOnNonConformingAccess := by
  refine fun s a rest hhost => ⟨fun ha => ?_, fun ha => ?_⟩ <;> rw [step_access hhost]
  · obtain ⟨t, ht⟩ := hostAccess_of_conforming (s := s.setHost rest) ha
    exact ⟨t, ht, (hostAccess_cfg_host ht).2⟩
  · exact hostAccess_of_not_conforming (s := s.setHost rest) ha

/-- Settles O13: no other kind of access writes `STATUS` or the key. -/
theorem onlyCmdWritesStartCommands : Obligations.OnlyCmdWritesStartCommands :=
  fun _ _ => step_status_k_of_not_cmd

/-- A byte written where it stands already leaves the block as it is. -/
theorem sameBlock_writeByte (s : State) (a : Nat) : SameBlock s (s.writeByte a (byteAt s a)) where
  n := rfl
  len := rfl
  k := rfl
  status := rfl
  bytes x := by
    rw [byteAt_writeByte]
    split
    · subst x; rfl
    · rfl

/-- Settles O14: each access by its inversion lemma. -/
theorem accessesHaveNoSideEffect : Obligations.AccessesHaveNoSideEffect := by
  intro s t rest h
  have haccess {a : HostAccess} (hhost : s.host = a :: rest) : hostAccess a (s.setHost rest) = .next t :=
    step_access hhost ▸ h
  refine ⟨fun off hhost => ?_, fun a hhost => ?_, fun a hhost => ?_, fun hhost => ?_, fun hhost => ?_⟩
  · obtain ⟨r, rfl⟩ := hostAccess_read_inv (.inl ⟨off, rfl⟩) (haccess hhost)
    exact ⟨rfl, rfl, rfl, rfl, fun _ => rfl⟩
  · obtain ⟨r, rfl⟩ := hostAccess_read_inv (.inr ⟨a, rfl⟩) (haccess hhost)
    exact ⟨rfl, rfl, rfl, rfl, fun _ => rfl⟩
  · obtain rfl := hostAccess_bufWrite_inv (haccess hhost)
    obtain ⟨hn, hlen, hk, hstatus, hbytes⟩ := sameBlock_writeByte (s.setHost rest) a
    exact ⟨hn, hlen, hk, hstatus, hbytes⟩
  · cases hostAccess_regWrite_eq (r := .len) (haccess hhost)
    exact ⟨rfl, rfl, rfl, rfl, fun _ => rfl⟩
  · cases hostAccess_regWrite_eq (r := .n) (haccess hhost)
    exact ⟨rfl, rfl, rfl, rfl, fun _ => rfl⟩

/-- A step leaves `STATUS` as it was, or takes a write to `CMD` and leaves the end of a command there. -/
theorem step_status_cases {s t : State} (h : step s = .next t) :
    t.status = s.status ∨
      ∃ w rest, s.host = .regWrite 0x00 w :: rest ∧ ∃ x hdr, t.status = completedStatus x hdr := by
  by_cases hcmd : ∃ w rest, s.host = .regWrite 0x00 w :: rest
  · obtain ⟨w, rest, hhost⟩ := hcmd
    have hissue : issue w (s.setHost rest) = .next t :=
      hostAccess_regWrite_eq (r := .cmd) ((step_access hhost).symm.trans h)
    exact .inr ⟨w, rest, hhost, issue_status hissue⟩
  · exact .inl (step_status_k_of_not_cmd h fun w rest hhost => hcmd ⟨w, rest, hhost⟩).1

/-- Settles O23: the end of a command shows `DONE`, and nothing else writes `STATUS`. -/
theorem doneMarksTheFirstCompletion : Obligations.DoneMarksTheFirstCompletion := by
  intro s t h
  obtain hsame | ⟨w, rest, hhost, x, hdr, hend⟩ := step_status_cases h
  · rw [hsame]
    exact ⟨id, fun hclear hset => absurd (hset.symm.trans hclear) (by decide)⟩
  · exact ⟨fun _ => hend ▸ statusDone_completed x hdr, fun _ _ => ⟨w, rest, hhost⟩⟩

end Sys2Proof.Machine

/-! Host programs (spec/30_encoding.md section 7, spec/70_reset_and_hazards.md section 2): what a run takes from the host's
list and keeps, the run of a `load`, and the obligations on both. -/

namespace Sys2Proof.Machine

/-! Runs. -/

/-- A step takes the first access, or waits (rules R22, R139). -/
theorem step_host {s t : State} (h : step s = .next t) : t.host = s.host.tail := by
  obtain ⟨hhost, rfl⟩ | ⟨a, rest, hhost, ha⟩ := step_cases h
  · rw [hhost]; rfl
  · rw [hhost, (hostAccess_cfg_host ha).2]; rfl

theorem step_cfg {s t : State} (h : step s = .next t) : t.cfg = s.cfg := by
  obtain ⟨-, rfl⟩ | ⟨a, rest, -, ha⟩ := step_cases h
  · rfl
  · exact (hostAccess_cfg_host ha).1

/-- A command is one transition, so an idle block is idle after every step (rule R146). -/
theorem step_keeps_idle {s t : State} (h : step s = .next t) (hb : statusBusy s.status = false) :
    statusBusy t.status = false := by
  obtain hsame | ⟨-, -, -, x, hdr, hend⟩ := step_status_cases h
  · rw [hsame, hb]
  · rw [hend, statusBusy_completed]

theorem runSteps_host {k : Nat} {s t : State} (h : runSteps k s = .next t) : t.host = s.host.drop k := by
  induction k generalizing s with
  | zero => cases h; rfl
  | succ k ih =>
    obtain ⟨u, hu, hrun⟩ := runSteps_succ_cases h
    rw [ih hrun, step_host hu, List.drop_tail]

theorem runSteps_keeps_idle {k : Nat} {s t : State} (h : runSteps k s = .next t) (hb : statusBusy s.status = false) :
    statusBusy t.status = false := by
  induction k generalizing s with
  | zero => cases h; exact hb
  | succ k ih =>
    obtain ⟨u, hu, hrun⟩ := runSteps_succ_cases h
    exact ih hrun (step_keeps_idle hu hb)

theorem runSteps_length_host {s t : State} (h : runSteps s.host.length s = .next t) : t.host = [] := by
  rw [runSteps_host h, List.drop_length]

/-- From an idle block every access that the spec gives an effect completes, whatever the accesses before it did. -/
theorem runSteps_completes {p : List HostAccess} {s : State} (hhost : s.host = p) (hb : statusBusy s.status = false)
    (hp : ∀ a ∈ p, a.wellFormed s.cfg.bufCap = true) : ∃ t, runSteps p.length s = .next t := by
  induction p generalizing s with
  | nil => exact ⟨s, rfl⟩
  | cons a rest ih =>
    obtain ⟨u, hu⟩ := hostAccess_completes_of_idle (s := s.setHost rest) hb (hp a List.mem_cons_self)
    have hstep : step s = .next u := (step_access hhost).trans hu
    rw [List.length_cons, runSteps_succ hstep]
    refine ih (hostAccess_cfg_host hu).2 (step_keeps_idle hstep hb) fun a' ha' => ?_
    rw [step_cfg hstep]
    exact hp a' (List.mem_cons_of_mem a ha')

/-- Settles O47: a run of as many steps as accesses takes them all, keeps an idle block idle, and completes if each access
does. -/
theorem hostProgramsEnd : Obligations.HostProgramsEnd := by
  refine ⟨fun s t h => ?_, fun s t => runSteps_length_host,
    fun s t hb h => ⟨runSteps_length_host h, runSteps_keeps_idle h hb⟩, fun s hb hp => ?_⟩
  · obtain hwait | ⟨a, rest, hhost, ha⟩ := step_cases h
    · exact .inl hwait
    · exact .inr ⟨a, rest, hhost, (hostAccess_cfg_host ha).2⟩
  · obtain ⟨t, ht⟩ := runSteps_completes rfl hb hp
    exact ⟨t, ht, runSteps_length_host ht, runSteps_keeps_idle ht hb⟩

/-! The host program `load`. -/

theorem runSteps_add {j k : Nat} {s t : State} (h : runSteps j s = .next t) : runSteps (j + k) s = runSteps k t := by
  induction j generalizing s with
  | zero => cases h; rw [Nat.zero_add]
  | succ j ih =>
    obtain ⟨u, hu, hrun⟩ := runSteps_succ_cases h
    rw [Nat.succ_add, runSteps_succ hu, ih hrun]

/-- The byte writes of a `load`, from an offset on, store its bytes there. -/
theorem runSteps_writes {bs : List Byte} {a : Nat} {p : List HostAccess} {s : State}
    (hhost : s.host = bs.mapIdx (fun i v => wb (a + i) v) ++ p) (hb : statusBusy s.status = false)
    (hroom : a + bs.length ≤ s.cfg.bufCap) :
    runSteps bs.length s = .next ((s.storeBytes a bs).setHost p) := by
  induction bs generalizing a s with
  | nil =>
    obtain rfl : s.host = p := hhost
    rfl
  | cons v bs ih =>
    rw [List.length_cons] at hroom
    have hindex : (fun i v => wb (a + (i + 1)) v) = fun i v => wb (a + 1 + i) v := by
      simp only [Nat.add_assoc, Nat.add_comm 1]
    rw [List.mapIdx_cons, List.cons_append, hindex] at hhost
    rw [List.length_cons, runSteps_succ (step_bufWrite hhost hb (by omega))]
    exact ih rfl hb (by rw [writeByte_cfg, setHost_cfg]; omega)

/-- `BUF` after a store from offset 0 on. -/
theorem byteAt_storeBytes_zero (s : State) (bs : List Byte) (x : Nat) :
    byteAt (s.storeBytes 0 bs) x = bs[x]?.getD (byteAt s x) := by
  simp only [byteAt, State.storeBytes, setBuf_buf, setBuf_cfg, lookup_store]
  by_cases hx : x < bs.length <;> simp [hx]

/-- Settles O48: the byte writes store the bytes, and the last access writes their number, which the capacity bounds. -/
theorem loadFillsTheBuffer : Obligations.LoadFillsTheBuffer := by
  intro s bs hwf hb hroom hhost
  have hwrites := runSteps_writes (a := 0) (by simpa only [load, Nat.zero_add] using hhost) hb (by omega)
  have hlast := step_regWrite (s := (s.storeBytes 0 bs).setHost [wr .len (BitVec.ofNat 32 bs.length)]) (r := .len) rfl hb
  have hlength : (load bs).length = bs.length + 1 := by simp [load]
  have hmax := hwf.2
  have hlen : (BitVec.ofNat 32 bs.length).toNat = bs.length := by
    rw [BitVec.toNat_ofNat, Nat.mod_eq_of_lt (by omega)]
  refine ⟨((s.storeBytes 0 bs).setHost []).setLen (BitVec.ofNat 32 bs.length), ?_, ?_, fun a ha => ?_, rfl⟩
  · rw [hlength, runSteps_add hwrites, runSteps_succ hlast]
    rfl
  · rw [contents, setLen_len, hlen]
    refine List.ext_getElem (by simp) fun i _ hi => ?_
    simp [byteAt_storeBytes_zero, hi]
  · simp [byteAt_storeBytes_zero, List.getElem?_eq_none ha]

end Sys2Proof.Machine

/-! The key step as three shift-XOR updates (spec/40_key_derivation.md section 3): each is injective, so the step is a
bijection, and the obligations on it. -/

namespace Sys2Proof.Machine

/-- `x ↦ x XOR f(x)` is injective if `f` respects XOR and has no fixed point but 0. -/
theorem xor_self_injective {f : Word → Word} (hxor : ∀ x y, f (x ^^^ y) = f x ^^^ f y) (hfix : ∀ d, f d = d → d = 0#32) :
    Function.Injective fun x => x ^^^ f x := by
  intro x y h
  refine BitVec.xor_eq_zero_iff.1 (hfix (x ^^^ y) ?_)
  have hzero : (x ^^^ f x) ^^^ (y ^^^ f y) = 0#32 := BitVec.xor_eq_zero_iff.2 h
  rw [hxor]
  refine (BitVec.xor_eq_zero_iff.1 ?_).symm
  rw [← hzero]
  ac_rfl

/-- A word that a shift leaves alone is 0: it is also left alone by a shift of all its bits. -/
theorem eq_zero_of_shift_eq_self {shift : Word → Nat → Word} (hzero : ∀ x, shift x 0 = x)
    (hadd : ∀ x m n, shift x (m + n) = shift (shift x m) n) (hall : ∀ x n, 32 ≤ n → shift x n = 0#32)
    {k : Nat} (hk : 0 < k) {d : Word} (h : shift d k = d) : d = 0#32 := by
  have hrepeat (m : Nat) : shift d (k * m) = d := by
    induction m with
    | zero => exact hzero d
    | succ m ih => rw [Nat.mul_succ, hadd, ih, h]
  exact (hrepeat 32).symm.trans (hall d _ (Nat.le_mul_of_pos_left 32 hk))

theorem xorShiftLeft_injective {k : Nat} (hk : 0 < k) : Function.Injective fun x : Word => x ^^^ (x <<< k) :=
  xor_self_injective (fun x y => BitVec.shiftLeft_xor_distrib x y k) fun _ =>
    eq_zero_of_shift_eq_self BitVec.shiftLeft_zero BitVec.shiftLeft_add (fun _ _ => BitVec.shiftLeft_eq_zero) hk

theorem xorShiftRight_injective {k : Nat} (hk : 0 < k) : Function.Injective fun x : Word => x ^^^ (x >>> k) :=
  xor_self_injective (fun x y => BitVec.ushiftRight_xor_distrib x y k) fun _ =>
    eq_zero_of_shift_eq_self BitVec.ushiftRight_zero BitVec.shiftRight_add (fun _ _ => BitVec.ushiftRight_eq_zero) hk

/-- The product by 32 in the finisher is a left shift by 5 (rule R69). -/
theorem fin32_eq_xorShift (x : Word) : fin32 x = x ^^^ (x <<< 5) := by
  have htwoPow : BitVec.twoPow 32 5 = 32#32 := by decide
  rw [fin32, BitVec.xor_comm, BitVec.mul_comm, ← htwoPow, BitVec.mul_twoPow_eq_shiftLeft]

theorem mix2_eq_xorShift (x : Word) : mix2 x = mixT x ^^^ (mixT x >>> 17) :=
  BitVec.xor_comm _ _

theorem keyStep_injective : Function.Injective keyStep := by
  have hfin : Function.Injective fin32 := by
    simpa only [funext fin32_eq_xorShift] using xorShiftLeft_injective (k := 5) (by decide)
  have hmix : Function.Injective mix2 := by
    rw [funext mix2_eq_xorShift]
    exact (xorShiftRight_injective (k := 17) (by decide)).comp (xorShiftLeft_injective (k := 13) (by decide))
  exact hfin.comp hmix

theorem keyStep_zero : keyStep 0#32 = 0#32 := by decide

theorem keyStep_ne_zero {x : Word} (hx : x ≠ 0#32) : keyStep x ≠ 0#32 := fun h =>
  hx (keyStep_injective (h.trans keyStep_zero.symm))

/-- Settles O27: an injective map of the finite set of words is a bijection, and one that fixes 0 takes nothing else
there. -/
theorem keyStepIsABijection : Obligations.KeyStepIsABijection := by
  refine ⟨Finite.injective_iff_bijective.1 keyStep_injective, keyStep_zero, fun n hn => ?_⟩
  have h0 := keyStep_ne_zero hn
  have h1 := keyStep_ne_zero h0
  have h2 := keyStep_ne_zero h1
  exact ⟨h0, h1, h2, keyStep_ne_zero h2⟩

/-- Settles O26: the step is the three updates in turn. -/
theorem keyWordsAreShiftXorSteps : Obligations.KeyWordsAreShiftXorSteps := by
  unfold Obligations.KeyWordsAreShiftXorSteps
  intro S n
  have hstep : keyStep = S := by
    funext x
    rw [keyStep, fin32_eq_xorShift, mix2_eq_xorShift]
    rfl
  rw [deriveKey_eq_keyStep, hstep]

end Sys2Proof.Machine

/-! Round trips (spec/43_encrypt.md section 4, spec/42_header_detect.md detection laws): the source's steps as rotations of
a sequence, `Encrypt` and `Decrypt` undoing each other on sequences, the buffer after an `ENCRYPT` that ends `OK`, and the
obligations on two commands in a row. -/

namespace Sys2Proof.Machine

/-! The source's steps undo each other on sequences. -/

@[simp] theorem length_xorCycled (k : Key) (bs : List Byte) : (xorCycled k bs).length = bs.length :=
  List.length_mapIdx

/-- XOR with the same keystream twice gives the bytes back. -/
@[simp] theorem xorCycled_xorCycled (k : Key) (bs : List Byte) : xorCycled k (xorCycled k bs) = bs := by
  refine List.ext_getElem (by simp) fun i _ _ => ?_
  simp [xorCycled]

/-- The encrypt direction of the rotator is a rotation by 8 (rule R104 step 3). -/
theorem moveFirst8ToEnd_eq_rotate {bs : List Byte} (h : bs.length = 0 ∨ 8 ≤ bs.length) :
    moveFirst8ToEnd bs = bs.rotate 8 := by
  obtain hnil | hlong := h
  · rw [List.length_eq_zero_iff.1 hnil]
    rfl
  · exact (List.rotate_eq_drop_append_take hlong).symm

/-- The decrypt direction, on the content behind a header, is a rotation by all but 8 (rule R84 steps 2 and 3). -/
theorem take_overwriteFirst8WithLast8_eq_rotate {m : List Byte} (h : m.length = 0 ∨ 8 ≤ m.length) :
    (overwriteFirst8WithLast8 (header ++ m)).take m.length = m.rotate (m.length - 8) := by
  have hcontent : (header ++ m).drop 8 = m := List.drop_left' length_header
  have hlast : (header ++ m).length - 8 = m.length := by simp [length_header]
  rw [overwriteFirst8WithLast8, hcontent, hlast]
  obtain hnil | hlong := h
  · rw [List.length_eq_zero_iff.1 hnil]
    rfl
  · have hsplit : m.length = 8 + (m.length - 8) := by omega
    have htail : (header ++ m).drop m.length = m.drop (m.length - 8) := by
      rw [hsplit, ← List.drop_drop, hcontent, Nat.add_sub_cancel_left]
    rw [htail, List.rotate_eq_drop_append_take (Nat.sub_le _ _), List.take_append, List.length_drop,
      List.take_of_length_le (by rw [List.length_drop]; omega), Nat.sub_sub_self hlong]

/-- `Decrypt` of a header and a content (rule R84). -/
theorem sourceDecrypt_header_append {m : List Byte} (h : m.length = 0 ∨ 8 ≤ m.length) :
    sourceDecrypt (header ++ m) = xorCycled (deriveKey (BitVec.ofNat 32 m.length)) (m.rotate (m.length - 8)) := by
  have hlength : (header ++ m).length - 8 = m.length := by simp [length_header]
  rw [sourceDecrypt, hlength, take_overwriteFirst8WithLast8_eq_rotate h]

/-- `Encrypt` of a plaintext (rule R104). -/
theorem sourceEncrypt_eq {p : List Byte} (h : p.length = 0 ∨ 8 ≤ p.length) :
    sourceEncrypt p = header ++ (xorCycled (deriveKey (BitVec.ofNat 32 p.length)) p).rotate 8 := by
  rw [sourceEncrypt, moveFirst8ToEnd_eq_rotate (by rwa [length_xorCycled])]

/-- Rotations by 8 and by all but 8, in either order, are no rotation. -/
theorem rotate_rotate_sub {bs : List Byte} (h : bs.length = 0 ∨ 8 ≤ bs.length) :
    (bs.rotate 8).rotate (bs.length - 8) = bs ∧ (bs.rotate (bs.length - 8)).rotate 8 = bs := by
  obtain hnil | hlong := h
  · rw [List.length_eq_zero_iff.1 hnil]
    exact ⟨rfl, rfl⟩
  · rw [List.rotate_rotate, List.rotate_rotate, Nat.add_sub_cancel' hlong, Nat.sub_add_cancel hlong, List.rotate_length]
    exact ⟨rfl, rfl⟩

/-- Rule R111 on sequences: `Decrypt` undoes `Encrypt`. -/
theorem sourceDecrypt_sourceEncrypt {p : List Byte} (h : p.length = 0 ∨ 8 ≤ p.length) :
    sourceDecrypt (sourceEncrypt p) = p := by
  have hback := (rotate_rotate_sub (bs := xorCycled (deriveKey (BitVec.ofNat 32 p.length)) p) (by simpa using h)).1
  rw [length_xorCycled] at hback
  rw [sourceEncrypt_eq h, sourceDecrypt_header_append (by simpa using h), List.length_rotate, length_xorCycled, hback,
    xorCycled_xorCycled]

/-- The converse: `Encrypt` undoes `Decrypt` of a header and a content. -/
theorem sourceEncrypt_sourceDecrypt {m : List Byte} (h : m.length = 0 ∨ 8 ≤ m.length) :
    sourceEncrypt (sourceDecrypt (header ++ m)) = header ++ m := by
  rw [sourceDecrypt_header_append h, sourceEncrypt_eq (by simpa using h), length_xorCycled, List.length_rotate,
    xorCycled_xorCycled, (rotate_rotate_sub h).2]

/-! The sequence of a block. -/

@[simp] theorem length_contents (s : State) : (contents s).length = s.len.toNat := by
  simp [contents]

/-- A sequence with the header is the header and a content (rule R95). -/
theorem contents_eq_header_append {s : State} (h : hasHeader s = true) : contents s = header ++ (contents s).drop 8 := by
  obtain ⟨hmin, hbytes⟩ := hasHeader_iff.1 h
  have hhead : (contents s).take 8 = header := by
    refine List.ext_getElem (by simp [length_header, hmin]) fun i _ hi => ?_
    simp [contents, getElem_header hi, hbytes i hi]
  rw [← hhead, List.take_append_drop]

/-- The lengths that `DECRYPT` transforms: with the header, a content of 0 bytes or at least 8 (rules R86, R88). -/
theorem commandOutcome_decrypt_eq_ok {s : State} :
    commandOutcome .decrypt s = .ok ↔
      s.len.toNat ≤ s.cfg.bufCap ∧ hasHeader s = true ∧ (s.len.toNat - 8 = 0 ∨ 8 ≤ s.len.toNat - 8) := by
  constructor
  · intro hok
    have hcap : s.len.toNat ≤ s.cfg.bufCap := not_lt.1 fun hlong => by
      simp [commandOutcome_of_tooLong (i := .decrypt) (by decide) hlong] at hok
    have hhdr : hasHeader s = true := Bool.of_not_eq_false fun hnone => by
      simp [commandOutcome, hnone, not_lt.2 hcap] at hok
    rw [commandOutcome_decrypt_of_header hcap hhdr] at hok
    split at hok
    · cases hok
    · exact ⟨hcap, hhdr, by omega⟩
  · rintro ⟨hcap, hhdr, hlen⟩
    rw [commandOutcome_decrypt_of_header hcap hhdr, if_neg (by omega)]

/-- What an `ENCRYPT` that ends `OK` leaves: the header in front of a longer sequence that the memory still holds. -/
theorem encrypt_ok_leaves {s t : State} (hwf : s.cfg.wf) (h : exec .encrypt s = .next t) (hcode : statusCode t.status = 0) :
    t.cfg = s.cfg ∧ t.len = s.len + 8#32 ∧ t.len.toNat = s.len.toNat + 8 ∧ t.len.toNat ≤ t.cfg.bufCap ∧
      hasHeader t = true := by
  obtain ⟨hok, rfl⟩ := exec_code_zero h hcode
  obtain ⟨-, -, hroom⟩ := commandOutcome_encrypt_eq_ok.1 hok
  have hlen : (s.len + 8#32).toNat = s.len.toNat + 8 := ciphertextLength_toNat hwf hroom
  refine ⟨rfl, rfl, hlen, hlen.trans_le hroom, hasHeader_iff.2 ⟨?_, fun i hi => ?_⟩⟩
  · exact (Nat.le_add_left 8 _).trans_eq hlen.symm
  · rw [byteAt_finishOk, commandWrites, byteAt_encryptWrites, if_pos (by omega), encryptedByte, if_pos hi]

/-- What a `DECRYPT` that ends `OK` leaves: a sequence shorter by the header. -/
theorem decrypt_ok_leaves {s t : State} (h : exec .decrypt s = .next t) (hcode : statusCode t.status = 0) :
    t.cfg = s.cfg ∧ t.len = s.len - 8#32 ∧ t.len.toNat + 8 = s.len.toNat := by
  obtain ⟨hok, rfl⟩ := exec_code_zero h hcode
  have hmin := len_of_decrypt_ok hok
  have hnat : (s.len - 8#32).toNat + 8 = s.len.toNat := by rw [contentLength_toNat hmin, Nat.sub_add_cancel hmin]
  exact ⟨rfl, rfl, hnat⟩

/-- A command with outcome `OK` completes with code 0. -/
theorem exists_exec_code_zero {i : Instr} {s : State} (hok : commandOutcome i s = .ok) :
    ∃ u, exec i s = .next u ∧ statusCode u.status = 0 ∧ u.len = (commandWrites i s).len :=
  ⟨_, exec_of_ok hok, statusCode_completed _ _, rfl⟩

/-! The obligations. -/

/-- Settles O36: both commands do the source's steps, which undo each other. -/
theorem decryptUndoesEncrypt : Obligations.DecryptUndoesEncrypt := by
  intro s t hwf h hcode
  obtain ⟨hok, -⟩ := exec_code_zero h hcode
  obtain ⟨-, hlen, -⟩ := commandOutcome_encrypt_eq_ok.1 hok
  obtain ⟨-, htlen, htnat, htcap, hthdr⟩ := encrypt_ok_leaves hwf h hcode
  obtain ⟨u, hu, hucode, hulen⟩ :=
    exists_exec_code_zero (commandOutcome_decrypt_eq_ok.2 ⟨htcap, hthdr, by omega⟩)
  refine ⟨u, hu, hucode, ?_, ?_⟩
  · rw [hulen, commandWrites, decryptWrites_len, htlen, BitVec.add_sub_cancel]
  · rw [decryptFollowsTheSourceSteps t u hu hucode, encryptFollowsTheSourceSteps s t hwf h hcode,
      sourceDecrypt_sourceEncrypt (by simpa using hlen)]

/-- Settles O37: the ciphertext is a header and a content, and the plaintext leaves room for the header it had. -/
theorem encryptUndoesDecrypt : Obligations.EncryptUndoesDecrypt := by
  intro s t hwf h hcode hplain
  obtain ⟨hok, -⟩ := exec_code_zero h hcode
  obtain ⟨hcap, hhdr, hlen⟩ := commandOutcome_decrypt_eq_ok.1 hok
  obtain ⟨htcfg, htlen, htnat⟩ := decrypt_ok_leaves h hcode
  obtain ⟨u, hu, hucode, hulen⟩ :=
    exists_exec_code_zero (commandOutcome_encrypt_eq_ok.2 ⟨hplain, by omega, by rw [htcfg]; omega⟩)
  refine ⟨u, hu, hucode, ?_, ?_⟩
  · rw [hulen, commandWrites, encryptWrites_len, htlen, BitVec.sub_add_cancel]
  · rw [encryptFollowsTheSourceSteps t u (htcfg ▸ hwf) hu hucode, decryptFollowsTheSourceSteps s t h hcode,
      contents_eq_header_append hhdr, sourceEncrypt_sourceDecrypt (by simpa using hlen)]

/-- Settles O38: `DETECT` and `ENCRYPT` on a buffer that has the header. -/
theorem encryptedBufferIsNotEncryptedAgain : Obligations.EncryptedBufferIsNotEncryptedAgain := by
  intro s t hwf h hcode
  obtain ⟨hcfg, -, -, hcap, hhdr⟩ := encrypt_ok_leaves hwf h hcode
  obtain ⟨hdetect, -⟩ := detectCompletes t
  obtain ⟨hagain, -⟩ := encryptCompletes t (hcfg ▸ hwf) hcap
  exact ⟨by rw [hdetect hcap, if_pos hhdr], hagain hhdr⟩

/-- Settles O39: with no byte the source's `Encrypt` gives the bare header, whose content length is 0. -/
theorem emptyPlaintextRoundTrips : Obligations.EmptyPlaintextRoundTrips := by
  intro s hwf hempty
  have hnat : s.len.toNat = 0 := by rw [hempty]; rfl
  have hplain : hasHeader s = false := Bool.of_not_eq_true fun hhdr => by
    have hmin := len_of_hasHeader hhdr
    omega
  have hok : commandOutcome .encrypt s = .ok :=
    commandOutcome_encrypt_eq_ok.2 ⟨hplain, .inl hnat, by rw [hnat]; exact hwf.1⟩
  obtain ⟨t, ht, htcode, -⟩ := exists_exec_code_zero hok
  have hcontents := encryptFollowsTheSourceSteps s t hwf ht htcode
  obtain ⟨-, htlen, htnat, htcap, hthdr⟩ := encrypt_ok_leaves hwf ht htcode
  obtain ⟨-, rfl⟩ := exec_code_zero ht htcode
  rw [hempty] at htlen
  refine ⟨_, _, ht, htlen, ?_, ?_, exec_decrypt_transform htcap hthdr (by omega), ?_, ?_, ?_, fun a => ?_⟩
  · rw [hcontents, contents, hnat]
    rfl
  · rw [finishOk_k, commandWrites, encryptWrites_k, hempty, deriveKey_zero]
  · rw [finishOk_status, completedStatus_ok]
    rfl
  · rw [finishOk_len, decryptWrites_len, htlen]
    rfl
  · rw [finishOk_k, decryptWrites_k, htlen]
    exact deriveKey_zero
  · rw [byteAt_finishOk, byteAt_decryptWrites, htlen]
    exact if_neg (Nat.not_lt_zero a)

/-- `DETECT` writes nothing but `STATUS` (rule R96). -/
theorem commandResult_detect (s : State) :
    commandResult .detect s = s.setStatus (completedStatus (commandOutcome .detect s) (commandHdr .detect s)) := by
  rw [commandResult, commandWrites, ite_self, completeWith]

/-- Settles O31: the first `DETECT` writes only `STATUS`, which the second does not read. -/
theorem detectionIsIdempotent : Obligations.DetectionIsIdempotent := by
  intro s t h
  rw [exec_eq_next] at h ⊢
  have hstatus := h.trans (commandResult_detect s)
  calc t = commandResult .detect s := h
    _ = commandResult .detect t := by rw [hstatus, commandResult_setStatus]

end Sys2Proof.Machine

/-! What a command reads and what it leaves (spec/10_state.md sections 2 and 9, spec/20_memory.md section 4): the frame of
every command, and its result from its inputs alone. -/

namespace Sys2Proof.Machine

/-- Settles O41: an error outcome writes only `STATUS`, and an `OK` one what the command's own rule writes. -/
theorem commandFrame : Obligations.CommandFrame := by
  intro i s t _ h
  refine ⟨exec_eq_next.1 h ▸ commandResult_sameHostSide i s, fun hi => ?_, ?_, ?_, ?_, fun hcode => ?_⟩
  · rw [exec_eq_next.1 h, commandResult]
    obtain rfl | rfl := hi <;> split <;> exact ⟨rfl, rfl⟩
  · rintro rfl
    rw [exec_eq_next.1 h, commandResult_detect, setStatus_k]
  · rintro rfl hcode a ha
    obtain ⟨hok, rfl⟩ := exec_code_zero h hcode
    have hlen := contentLength_toNat (len_of_decrypt_ok hok)
    rw [byteAt_finishOk, commandWrites, byteAt_decryptWrites, if_neg (by omega)]
  · rintro rfl hcode a ha
    obtain ⟨-, rfl⟩ := exec_code_zero h hcode
    rw [byteAt_finishOk, commandWrites, byteAt_encryptWrites, if_neg (by omega)]
  · rw [exec_eq_next.1 h, commandResult_status, statusCode_completed] at hcode
    rw [exec_of_error (mt number_eq_zero.2 hcode)] at h
    cases h
    exact ⟨rfl, rfl, rfl⟩

/-! Two states with the same inputs. -/

/-- The header test reads the length and the first 8 bytes of the sequence (rule R95). -/
theorem hasHeader_congr {s s' : State} (hlen : s'.len = s.len)
    (hbytes : ∀ a, a < s.len.toNat → a < 8 → byteAt s' a = byteAt s a) : hasHeader s' = hasHeader s := by
  rw [Bool.eq_iff_iff, hasHeader_iff, hasHeader_iff, hlen]
  exact and_congr_right fun hmin => forall₂_congr fun i hi => by rw [hbytes i (hi.trans_le hmin) hi]

/-- The inputs of a command: the capacity, `N`, `LEN` and the sequence are the same (10_state.md section 9). -/
structure SameInputs (s s' : State) : Prop where
  cap : s'.cfg.bufCap = s.cfg.bufCap
  n : s'.n = s.n
  len : s'.len = s.len
  bytes : ∀ a, a < s.len.toNat → byteAt s' a = byteAt s a

section
variable {s s' : State} (h : SameInputs s s')
include h

theorem SameInputs.hasHeader_eq : hasHeader s' = hasHeader s :=
  hasHeader_congr h.len fun a ha _ => h.bytes a ha

theorem SameInputs.commandOutcome_eq (i : Instr) : commandOutcome i s' = commandOutcome i s := by
  cases i <;> simp only [commandOutcome, h.cap, h.len, h.hasHeader_eq]

theorem SameInputs.commandHdr_eq (i : Instr) : commandHdr i s' = commandHdr i s := by
  simp only [commandHdr, h.cap, h.len, h.hasHeader_eq]

theorem SameInputs.commandWrites_len (i : Instr) : (commandWrites i s').len = (commandWrites i s).len := by
  cases i <;> simp [commandWrites, h.len]

theorem SameInputs.commandWrites_k {i : Instr} (hi : i ≠ .detect) : (commandWrites i s').k = (commandWrites i s).k := by
  cases i with
  | detect => exact absurd rfl hi
  | derive | decrypt | encrypt => simp [commandWrites, h.len, h.n]

/-- A byte of the plaintext comes from the sequence. -/
theorem SameInputs.decryptedByte_eq {l i : Nat} (hl : l + 8 = s.len.toNat) (hi : i < l) (k : Key) :
    decryptedByte s' l k i = decryptedByte s l k i := by
  unfold decryptedByte
  split
  · rw [h.bytes (l + i) (by omega)]
  · rw [h.bytes i (by omega)]

/-- A byte of the ciphertext is one of the header, or comes from the sequence. -/
theorem SameInputs.encryptedByte_eq (hl : s.len.toNat = 0 ∨ 8 ≤ s.len.toNat) {j : Nat} (hj : j < s.len.toNat + 8) (k : Key) :
    encryptedByte s' s.len.toNat k j = encryptedByte s s.len.toNat k j := by
  unfold encryptedByte xoredByte
  split_ifs with hhead hbody
  · rfl
  · rw [h.bytes j hbody]
  · rw [h.bytes (j - s.len.toNat) (by omega)]

/-- The new sequence depends on the inputs only. -/
theorem SameInputs.commandWrites_bytes {i : Instr} (hok : commandOutcome i s = .ok) {a : Nat}
    (ha : a < (commandWrites i s).len.toNat) : byteAt (commandWrites i s') a = byteAt (commandWrites i s) a := by
  cases i with
  | derive | detect => exact h.bytes a ha
  | decrypt =>
    obtain ⟨-, hhdr, -⟩ := commandOutcome_decrypt_eq_ok.1 hok
    have hmin := len_of_hasHeader hhdr
    have hnat := contentLength_toNat hmin
    rw [commandWrites, decryptWrites_len] at ha
    rw [commandWrites, commandWrites, byteAt_decryptWrites, byteAt_decryptWrites, h.len, if_pos ha, if_pos ha]
    exact h.decryptedByte_eq (by omega) ha _
  | encrypt =>
    obtain ⟨-, hl, -⟩ := commandOutcome_encrypt_eq_ok.1 hok
    have hlt : a < s.len.toNat + 8 := ha.trans_le (by
      rw [commandWrites, encryptWrites_len, BitVec.toNat_add]
      exact Nat.mod_le _ _)
    rw [commandWrites, commandWrites, byteAt_encryptWrites, byteAt_encryptWrites, h.len, if_pos hlt, if_pos hlt]
    exact h.encryptedByte_eq hl hlt _

end

/-- Settles O45: by outcome, which is the same in both states. -/
theorem resultsDependOnTheInputsOnly : Obligations.ResultsDependOnTheInputsOnly := by
  intro i s s' hcap hn hlen hbytes
  have h : SameInputs s s' := ⟨hcap, hn, hlen, hbytes⟩
  by_cases hok : commandOutcome i s = .ok
  · have hok' : commandOutcome i s' = .ok := (h.commandOutcome_eq i).trans hok
    refine ⟨_, _, exec_of_ok hok, exec_of_ok hok', ?_, h.commandWrites_len i, fun _ => h.commandWrites_k,
      fun a => h.commandWrites_bytes hok⟩
    rw [finishOk_status, finishOk_status, h.commandHdr_eq]
  · have hok' : commandOutcome i s' ≠ .ok := h.commandOutcome_eq i ▸ hok
    refine ⟨_, _, exec_of_error hok, exec_of_error hok', ?_, hlen, fun hcode => absurd ?_ hok, hbytes⟩
    · rw [raiseOutcome_status, raiseOutcome_status, h.commandOutcome_eq, h.commandHdr_eq]
    · rwa [raiseOutcome_status, statusCode_completed, BitVec.ofNat_eq_ofNat, number_eq_zero] at hcode

/-- Settles O46: `DERIVE` reads `N`; `DETECT` compares the length and makes the header test. -/
theorem deriveAndDetectReadNothingElse : Obligations.DeriveAndDetectReadNothingElse := by
  refine ⟨fun s s' hn => ⟨_, _, deriveCompletes s, deriveCompletes s', congrArg deriveKey hn, rfl⟩,
    fun s s' hcap hlen hbytes => ⟨_, _, exec_eq .detect s, exec_eq .detect s', ?_⟩⟩
  have hhdr := hasHeader_congr hlen hbytes
  simp only [commandResult_status, commandOutcome, commandHdr, hcap, hlen, hhdr]

end Sys2Proof.Machine
